-- ==== Sys2Proof/Word.lean ====
section
/-!
DEFINITION. The values of the block (00_scope R9): bytes, 16-bit and 32-bit unsigned integers.
-/

namespace Sys2Proof

/-- One byte of memory (20_memory R27). -/
abbrev Byte := BitVec 8

/-- `u16` of 00_scope R9: the Checksum Field, `SAVED`, `RESULT`. -/
abbrev Half := BitVec 16

/-- `u32` of 00_scope R9: lanes, memory words, digests, command words, operand registers. -/
abbrev Word := BitVec 32

end Sys2Proof
end

