-- ==== Sys2Proof/Syntax.lean ====
section
/-!
DEFINITION. The block's instructions: the two commands of 30_encoding R44 (spec/opcode_table.json has exactly these two
rows). A command word carries no immediate and no register number (R46), so neither constructor has an operand.
-/

namespace Sys2Proof

/-- A command (30_encoding R43, R44). -/
inductive Instr where
  /-- `MIX`, opcode 0x01: run the Lane Mixer over the page (40_lane_mixer R52). -/
  | mix
  /-- `CKSUM`, opcode 0x02: run the Page Checksum Adapter over the page (41_checksum_adapter R62). -/
  | cksum
deriving DecidableEq, Repr

end Sys2Proof
end

