-- ==== Sys2Proof/Decode.lean ====
section
/-!
DEFINITION. The command decoder and encoder (30_encoding R43 to R45, R49): one 32-bit word, opcode in bits 7:0, bits
31:8 reserved and zero. The decoder is total: a command, or illegal with the reason by name.
-/

namespace Sys2Proof

/-- Why a word is no command (30_encoding R45): a set reserved bit, or an opcode the map does not hold. -/
inductive IllegalWord where
  | reservedBits
  | unknownOpcode (opcode : BitVec 8)
deriving DecidableEq, Repr

/-- What the decoder answers for a word (30_encoding R45). -/
inductive Decoded where
  | command (i : Instr)
  | illegal (why : IllegalWord)
deriving DecidableEq, Repr

/-- A row of the opcode map (30_encoding R44). -/
structure OpcodeRow where
  matchBits : Word
  mask : Word
  instr : Instr
deriving DecidableEq, Repr

/-- The complete opcode map (30_encoding R44). -/
def opcodeMap : List OpcodeRow :=
  [ { matchBits := 0x00000001#32, mask := 0xFFFFFFFF#32, instr := .mix },
    { matchBits := 0x00000002#32, mask := 0xFFFFFFFF#32, instr := .cksum } ]

/-- Field `opcode`, bits 7:0 (30_encoding R43). -/
def opcodeField (w : Word) : BitVec 8 := w.extractLsb' 0 8

/-- Field `rsvd`, bits 31:8 (30_encoding R43). -/
def rsvdField (w : Word) : BitVec 24 := w.extractLsb' 8 24

/-- Why an illegal word is illegal (30_encoding R45). -/
def illegalReason (w : Word) : IllegalWord :=
  if rsvdField w = 0#24 then .unknownOpcode (opcodeField w) else .reservedBits

/-- A row is selected exactly when `(w AND mask) = match` (30_encoding R44). -/
def OpcodeRow.selects (r : OpcodeRow) (w : Word) : Bool := w &&& r.mask == r.matchBits

/-- The decoder (30_encoding R44, R45). -/
def decode (w : Word) : Decoded :=
  match opcodeMap.find? fun r => r.selects w with
  | some r => .command r.instr
  | none => .illegal (illegalReason w)

/-- The opcode of a command (30_encoding R44). -/
def opcodeOf : Instr → BitVec 8
  | .mix => 0x01#8
  | .cksum => 0x02#8

/-- The command word: `rsvd` zero above the opcode (30_encoding R43). -/
def encode (i : Instr) : Word := 0#24 ++ opcodeOf i

/-- The instruction the decoder reads from the low `nbits` bits of `w`, every higher bit of the one 32-bit word 0
(30_encoding R49: there is no second word). -/
def decodeTableWord (nbits w : Nat) : Option Instr :=
  if nbits ≤ 32 then
    match decode (BitVec.ofNat 32 (w % 2 ^ nbits)) with
    | .command i => some i
    | .illegal _ => none
  else
    none

end Sys2Proof
end

