-- ==== Sys2Proof/Config.lean ====
section
/-!
DEFINITION. What an implementation fixes: the fixed parameters of 00_scope R5, the open parameters of 00_scope R7 and
92_eei_decisions (constants with no body), and the free values (constants with no body).
-/

namespace Sys2Proof.Config

/-! ### Fixed parameters (00_scope R5) -/

/-- `PAGE_SIZE`: bytes in a Page Buffer. -/
abbrev pageSize : Nat := 8192
/-- `WORD_BYTES`: bytes per word. -/
abbrev wordBytes : Nat := 4
/-- `N_LANES`: lanes, equal to grid columns. -/
abbrev nLanes : Nat := 32
/-- `N_ROWS`: grid rows. -/
abbrev nRows : Nat := 64
/-- `N_WORDS` = `N_ROWS * N_LANES`. -/
abbrev nWords : Nat := 2048
/-- `FINAL_ROUNDS`: zero rounds per lane. -/
abbrev finalRounds : Nat := 2
/-- `FNV_PRIME`, the multiplier of the mixing step. -/
abbrev fnvPrime : Word := 16777619#32
/-- `SHIFT`, the right-shift distance of the mixing step. -/
abbrev shift : Nat := 17
/-- `MODULUS` of the 16-bit reduction. -/
abbrev modulus : Nat := 65535
/-- `FIELD_BYTES`: the Checksum Field is a 16-bit slot. -/
abbrev fieldBytes : Nat := 2
/-- The size of the memory space: addresses 0 to 2^32 - 1 (20_memory R27). -/
abbrev memBytes : Nat := 4294967296

/-- A page geometry, as the configuration record of 00_scope R6. -/
structure Geometry where
  pageSize : Nat
  wordBytes : Nat
  nLanes : Nat
  nRows : Nat
deriving DecidableEq, Repr

/-- The one geometry of the block (00_scope R5). -/
def geometry : Geometry :=
  { pageSize := pageSize, wordBytes := wordBytes, nLanes := nLanes, nRows := nRows }

/-! ### Open parameters (00_scope R7) -/

/-- The Lane Accumulator Set as a value: 32 words, indexed by lane (10_state R12, R13). -/
abbrev Lanes := Vector Word nLanes

/-- The parameters every micro-operation takes (10_state R26): the Base Constant Table and the byte offset of the
Checksum Field. -/
structure Params where
  base : Lanes
  cksumOff : Nat
deriving DecidableEq, Repr

/-- `BASE`, the Base Constant Table (10_state R13; open, 92_eei_decisions D2). DESIGN CHOICE, safe (log 4): no body,
so a proof holds for every table. -/
opaque base : Lanes

/-- Half of `CKSUM_OFF` (open, 92_eei_decisions D3). DESIGN CHOICE, safe (log 5): no body. -/
opaque fieldHalf : Fin 4096

/-- `CKSUM_OFF`: even and in 0..8190 by construction (20_memory R30). -/
def cksumOff : Nat := 2 * fieldHalf.val

/-- The parameters of this machine. -/
def params : Params := { base := base, cksumOff := cksumOff }

/-- `IsNewPage`, the host's undefined predicate on 8192 bytes (41_checksum_adapter R72; open, D16). A premise for
claims only: no step reads it (log 24). -/
opaque isNewPage : List Byte → Bool

/-! ### Free values -/

/-- What `ACC` holds after the reset with number `n` (10_state R25: "unspecified"). DESIGN CHOICE (log 10): no body. -/
opaque freeLanes : Nat → Lanes

/-- What `COMB` holds after the reset with number `n` (10_state R25: "unspecified"). DESIGN CHOICE (log 10): no body. -/
opaque freeComb : Nat → Word

/-- What the host's read number `n` outside the register window returns (42_host_access R78 states no value). DESIGN
CHOICE, safe (log 13): no body. -/
opaque freeRead : Nat → Word

/-! ### Tables for tests (95_test_vectors section 2) -/

/-- `BASE_TEST[i] = i` (92_eei_decisions D30), for tests only. -/
def baseTest : Lanes := Vector.ofFn fun i => BitVec.ofNat 32 i.val

/-- `BASE_ZERO[i] = 0` (92_eei_decisions D30), for tests only. -/
def baseZero : Lanes := Vector.replicate 32 0#32

/-- `BASE_REF` (93_implementation_defined G1): from general knowledge and unaudited, for tests only; the machine does
not use it. -/
def baseRef : Lanes :=
  #v[0x5B1F36E9#32, 0xB8525960#32, 0x02AB50AA#32, 0x1DE66D2A#32,
     0x79FF467A#32, 0x9BB9F8A3#32, 0x217E7CD2#32, 0x83E13D2C#32,
     0xF8D4474F#32, 0xE39EB970#32, 0x42C6AE16#32, 0x993216FA#32,
     0x7B093B5D#32, 0x98DAFF3C#32, 0xF718902A#32, 0x0B1C9CDB#32,
     0xE58F764B#32, 0x187636BC#32, 0x5D7B3BB1#32, 0xE73DE7DE#32,
     0x92BEC979#32, 0xCCA6C0B2#32, 0x304A0979#32, 0x85AA43D4#32,
     0x783125BB#32, 0x6CA8EAA2#32, 0xE407EAC6#32, 0x4B5CFC3E#32,
     0x9FBF8C76#32, 0x15CA20BE#32, 0xF2CA9FD3#32, 0x959BD756#32]

end Sys2Proof.Config
end

