-- ==== Sys2Proof/Machine/State.lean ====
section
/-!
DEFINITION. The state of the system: block instances (10_state R11), memory (20_memory R27), the platform's answers
(R37, R38, R41), the moves still to be taken and the host script's result list (30_encoding R48). Plain data.
-/

namespace Sys2Proof.Machine

/-- `PHASE`: which micro-operation runs next (10_state R20, 30_encoding R47). Codes 11 to 14 never occur and have no
constructor (93 U14, log 18). -/
inductive Phase where
  | idle
  | save
  | zero
  | init
  | absorb
  | final
  | fold
  | restore
  | salt
  | reduce
  | abort
  | faulted
deriving DecidableEq, Repr

/-- `CAUSE`: the first fault since reset (60_exceptions R83). Codes 4 to 15 never occur (93 U14, log 18). -/
inductive Cause where
  | none
  | illegalCmd
  | badBase
  | busError
deriving DecidableEq, Repr

/-- The size of a host access: 1, 2 or 4 bytes (30_encoding R48). -/
inductive AccessSize where
  | byte
  | half
  | word
deriving DecidableEq, Repr

/-- The state of one block instance, exactly the elements of 10_state R11. -/
structure Block where
  /-- `PHASE` (R20). -/
  phase : Phase
  /-- `IDX` (R20). -/
  idx : BitVec 11
  /-- `OP` (R20): the latched command, bit 0 for `MIX` and 1 for `CKSUM`. -/
  op : Instr
  /-- `DONE` (R22). -/
  done : Bool
  /-- `WRERR` (R22). -/
  wrerr : Bool
  /-- `CAUSE` (R22). -/
  cause : Cause
  /-- `PAGE_BASE` (R14). -/
  pageBase : Word
  /-- `BLKIDX` (R15). -/
  blkidx : Word
  /-- `SAVED_VALID` (R18). -/
  savedValid : Bool
  /-- `SAVED` (R18). -/
  saved : Half
  /-- `RESULT` (R17). -/
  result : Half
  /-- `COMB` (R19). -/
  comb : Word
  /-- `DIGEST` (R16). -/
  digest : Word
  /-- `ACC[0..31]`, the Lane Accumulator Set (R12). -/
  acc : Config.Lanes
deriving DecidableEq, Repr

/-- Accesses the platform does not take: those of `size` bytes at an address `a` with `lo ≤ a < hi` (20_memory R37). -/
structure RefusedAccess where
  lo : Nat
  hi : Nat
  size : Nat
deriving DecidableEq, Repr

/-- The addresses `a` with `lo ≤ a < hi`; none if `hi ≤ lo` (log 9). -/
structure Region where
  lo : Nat
  hi : Nat
deriving DecidableEq, Repr

/-- The register window of one block instance, mapped into memory at `regBase` (`REG_BASE`, 00_scope R7). -/
structure RegWindow where
  block : Nat
  regBase : Nat
deriving DecidableEq, Repr

/-- What the platform says of the memory space. `refused` is `MemAdmits` (20_memory R37, log 6); `devices` are the
regions that are not ordinary memory (R38, log 9); `windows` are the mapped register windows (R27, R41, log 8). -/
structure Platform where
  refused : List RefusedAccess
  devices : List Region
  windows : List RegWindow
deriving DecidableEq, Repr

/-- One move of one agent. Blocks are named by number: 0 is `State.blk`, `k + 1` is entry `k` of `State.others`. The
host lines are those of 30_encoding R48. -/
inductive Move where
  /-- The block takes its next micro-operation (10_state R20). -/
  | block (k : Nat)
  /-- `rd`: the host reads block `k`'s register window at byte offset `off` (42_host_access R73). -/
  | regRead (k off : Nat) (size : AccessSize)
  /-- `wr`: the host writes block `k`'s register window at byte offset `off` (R74 to R78). -/
  | regWrite (k off : Nat) (size : AccessSize) (v : Word)
  /-- `mr<n>`: the host (any other agent) reads memory (R80). -/
  | memRead (size : AccessSize) (addr : Nat)
  /-- `mw<n>`: the host (any other agent) writes memory (R80). -/
  | memWrite (size : AccessSize) (addr : Nat) (v : Word)
  /-- `wait`: poll block `k`'s `STATUS` until `BUSY = 0` (30_encoding R48, 42_host_access R81). -/
  | wait (k : Nat)
  /-- `reset` of block `k` (70_reset_and_hazards R99). -/
  | reset (k : Nat)
  /-- The platform changes which accesses it takes (95_test_vectors P6, log 6). -/
  | setAdmission (refused : List RefusedAccess)
deriving DecidableEq, Repr

/-- The state of the system. -/
structure State where
  /-- The block instance a command given to `exec` addresses (10_state R11). -/
  blk : Block
  /-- The other block instances (60_exceptions R96, log 16). -/
  others : List Block
  /-- Memory (20_memory R27): rising addresses, no entry that reads as an unlisted address does (log 11). -/
  mem : List Host.Cell
  /-- The platform (logs 6, 8, 9). -/
  platform : Platform
  /-- The moves still to be taken, first one first (logs 2, 3). -/
  turns : List Move
  /-- The host script's result list, oldest first (30_encoding R48, log 20). -/
  results : List Word
  /-- The number of the next free value (logs 10, 13). -/
  freeCtr : Nat
deriving DecidableEq, Repr

/-- Reasons the machine stops with a fault. The block's own faults are not among them: 60_exceptions R88 makes them next
states. -/
inductive Fault where
  /-- A memory access reaches past the top of the memory space (20_memory R27). Raised by the host's memory accesses,
  and by a block's in states no run reaches (R31). Safe (log 14). -/
  | noSuchAddress
deriving DecidableEq, Repr

/-- Reasons the model gives a step no meaning. -/
inductive Refusal where
  /-- An instruction the model has no meaning for. Safe. No arm of `exec` raises it. -/
  | notModelled (mnemonic : String)
  /-- A register access that is not 32 bits wide or not aligned: "a model should refuse them" (42_host_access R79, 93
  U10). Raised by register reads and writes. Safe (log 15). -/
  | registerAccessShape
  /-- A command on a page that overlaps a device or a register window: "a model should refuse it" (20_memory R38, 93
  U9). Raised by command acceptance. Safe (log 9). -/
  | pageNotOrdinary
  /-- A host memory access that touches a device, whose behaviour the spec does not give (20_memory R38). Raised by host
  memory accesses. Safe (log 9). -/
  | deviceAccess
  /-- A move that names a block instance the system does not have (60_exceptions R96). Raised by every move with a block
  number. Safe (log 16). -/
  | noSuchBlock
deriving DecidableEq, Repr

/-- The values of 10_state R25. `ACC` and `COMB` hold "no value": a free value of the reset's number `n` (log 10). -/
def Block.reset (n : Nat) : Block :=
  { acc := Config.freeLanes n
    pageBase := 0#32
    blkidx := 0#32
    digest := 0#32
    result := 0#16
    saved := 0#16
    savedValid := false
    comb := Config.freeComb n
    phase := .idle
    idx := 0#11
    op := .mix
    done := false
    wrerr := false
    cause := .none }

/-- The machine right after reset: one block with the values of 10_state R25, nothing listed in memory (log 11), a
platform that takes every access, no move placed (log 2) and no result (log 12). -/
def State.reset : State :=
  { blk := Block.reset 0
    others := []
    mem := []
    platform := { refused := [], devices := [], windows := [] }
    turns := []
    results := []
    freeCtr := 1 }

end Sys2Proof.Machine
end

