-- ==== Sys2Proof/Machine/Flags.lean ====
section
/-!
DEFINITION. Codes, flags and the composed registers: `PHASE` codes (30_encoding R47), `CAUSE` codes (60_exceptions R83),
`STATUS` (10_state R21) and the register view of `SAVED` (R23). The block has no arithmetic flag (R22).
-/

namespace Sys2Proof.Machine

/-- The 4-bit code of a phase (30_encoding R47). -/
def Phase.code : Phase → BitVec 4
  | .idle => 0#4
  | .save => 1#4
  | .zero => 2#4
  | .init => 3#4
  | .absorb => 4#4
  | .final => 5#4
  | .fold => 6#4
  | .restore => 7#4
  | .salt => 8#4
  | .reduce => 9#4
  | .abort => 10#4
  | .faulted => 15#4

/-- The 4-bit code of a cause (60_exceptions R83). -/
def Cause.code : Cause → BitVec 4
  | .none => 0#4
  | .illegalCmd => 1#4
  | .badBase => 2#4
  | .busError => 3#4

/-- The `OP` bit of a command (10_state R20). -/
def opBit : Instr → Bool
  | .mix => false
  | .cksum => true

/-- `BUSY`: the phase is neither `IDLE` nor `FAULTED` (10_state R21). -/
def Phase.busy : Phase → Bool
  | .idle => false
  | .faulted => false
  | .save => true
  | .zero => true
  | .init => true
  | .absorb => true
  | .final => true
  | .fold => true
  | .restore => true
  | .salt => true
  | .reduce => true
  | .abort => true

/-- `FAULT`: the phase is `FAULTED` (10_state R21). -/
def Phase.isFaulted (ph : Phase) : Bool := ph == .faulted

/-- `STATUS`, composed from state on every read (10_state R21). -/
def status (b : Block) : Word :=
  0#19 ++ BitVec.ofBool (opBit b.op) ++ b.phase.code ++ b.cause.code ++ BitVec.ofBool b.wrerr ++
    BitVec.ofBool b.phase.isFaulted ++ BitVec.ofBool b.done ++ BitVec.ofBool b.phase.busy

/-- Register `RESULT` as read: bits 31:16 are 0 (10_state R23). -/
def resultReg (b : Block) : Word := b.result.setWidth 32

/-- Register `SAVED` as read: `SAVED` in bits 15:0, `SAVED_VALID` in bit 16 (10_state R23). -/
def savedReg (b : Block) : Word := 0#15 ++ BitVec.ofBool b.savedValid ++ b.saved

end Sys2Proof.Machine
end

