-- ==== Sys2Proof/Machine/Operands.lean ====
section
/-!
DEFINITION. Operand forms: the two addresses the block forms (20_memory R32), the checks on `PAGE_BASE` (R31, R38), the
registers of the window (10_state R23) and the sizes of host accesses (30_encoding R48).
-/

namespace Sys2Proof.Machine

/-! ### The block's addresses -/

/-- The address of the word `ABSORB` reads: `PAGE_BASE + 4*IDX` (20_memory R32). -/
def wordAddr (b : Block) : Nat := b.pageBase.toNat + 4 * b.idx.toNat

/-- The address of the Checksum Field: `PAGE_BASE + CKSUM_OFF` (20_memory R30, R32). -/
def fieldAddr (p : Config.Params) (b : Block) : Nat := b.pageBase.toNat + p.cksumOff

/-- The legal `PAGE_BASE` of a command (20_memory R31, 42_host_access R75): a multiple of 4, at most 0xFFFFE000. -/
def pageBaseOk (a : Word) : Bool := a.toNat % 4 == 0 && decide (a.toNat ≤ 0xFFFFE000)

/-- Whether the `n` bytes from `a` and the addresses `b` with `lo ≤ b < hi` have an address in common. DESIGN CHOICE,
safe (log 9): the platform's regions are half-open ranges, so one with `hi ≤ lo` holds no address and overlaps nothing. -/
def overlaps (a n lo hi : Nat) : Bool := decide (max a lo < min (a + n) hi)

/-- Whether the 8192 bytes from `a` are ordinary memory: no device and no mapped register window (20_memory R38). -/
def pageOrdinary (pl : Platform) (a : Word) : Bool :=
  !(pl.devices.any fun r => overlaps a.toNat Config.pageSize r.lo r.hi) &&
    !(pl.windows.any fun w => overlaps a.toNat Config.pageSize w.regBase (w.regBase + 32))

/-! ### The register window -/

/-- The registers of the window (10_state R23). -/
inductive Reg where
  | cmd
  | status
  | pageBase
  | blkidx
  | digest
  | result
  | saved
  | reserved
deriving DecidableEq, Repr

/-- The byte offset of a register (10_state R23). -/
def Reg.offset : Reg → Nat
  | .cmd => 0x00
  | .status => 0x04
  | .pageBase => 0x08
  | .blkidx => 0x0C
  | .digest => 0x10
  | .result => 0x14
  | .saved => 0x18
  | .reserved => 0x1C

/-- The register at an aligned offset inside the window (10_state R23). -/
def regAt (off : Nat) : Option Reg :=
  match off with
  | 0x00 => some .cmd
  | 0x04 => some .status
  | 0x08 => some .pageBase
  | 0x0C => some .blkidx
  | 0x10 => some .digest
  | 0x14 => some .result
  | 0x18 => some .saved
  | 0x1C => some .reserved
  | _ => none

/-- Where a register access goes (42_host_access R78, R79). -/
inductive RegTarget where
  /-- A register of the window. -/
  | reg (r : Reg)
  /-- Offset 0x20 or above: the access does not reach the block (R78). -/
  | outside
  /-- Inside the window, not 32 bits wide or not aligned (R79). -/
  | badShape
deriving DecidableEq, Repr

/-- The target of a register access (42_host_access R78, R79; log 15). -/
def regTarget (off : Nat) (size : AccessSize) : RegTarget :=
  if 0x20 ≤ off then .outside
  else
    match size, regAt off with
    | .word, some r => .reg r
    | .word, none => .badShape
    | .half, _ => .badShape
    | .byte, _ => .badShape

/-! ### Host memory accesses -/

/-- The number of bytes of a host access (30_encoding R48). -/
def AccessSize.bytes : AccessSize → Nat
  | .byte => 1
  | .half => 2
  | .word => 4

/-- Where a host memory access goes (logs 8, 9). -/
inductive MemTarget where
  /-- Ordinary memory. -/
  | memory
  /-- Block `k`'s register window, at byte offset `off`. -/
  | window (k off : Nat)
  /-- A device, or an access that reaches into a window from below it. -/
  | device
deriving DecidableEq, Repr

/-- The target of a host access of `n` bytes at `a`: a mapped register window (20_memory R27), a device (R38), or
ordinary memory. -/
def memTarget (pl : Platform) (a n : Nat) : MemTarget :=
  match pl.windows.find? fun w => overlaps a n w.regBase (w.regBase + 32) with
  | some w => if w.regBase ≤ a then .window w.block (a - w.regBase) else .device
  | none => if pl.devices.any fun r => overlaps a n r.lo r.hi then .device else .memory

end Sys2Proof.Machine
end

