-- ==== Sys2Proof/Machine/Arith.lean ====
section
/-!
DEFINITION. The pure functions of the source: the mixing step and the Lane Mixer (40_lane_mixer R50, R51), the reduction
and the Page Checksum Adapter (41_checksum_adapter R60, R61), and how bytes form words (20_memory R28, R29).
-/

namespace Sys2Proof.Machine

/-! ### Lanes -/

/-- The lane of a word or step index: its column (20_memory R28: "lane assignment = column index"). -/
def laneOf (n : Nat) : Fin 32 := ⟨n % 32, Nat.mod_lt n (by decide)⟩

/-- `ACC[i]` (00_scope R9). -/
def getLane (a : Config.Lanes) (i : Fin 32) : Word := a[i.val]

/-- `ACC[i] <- v` (00_scope R9). -/
def setLane (a : Config.Lanes) (i : Fin 32) (v : Word) : Config.Lanes := a.set i.val v

/-! ### The Lane Mixer -/

/-- The mixing step (40_lane_mixer R50, R58). -/
def mixstep (acc x : Word) : Word :=
  let tmp := acc ^^^ x
  (tmp * Config.fnvPrime) ^^^ (tmp >>> Config.shift)

/-- One mixing step on the lane of index `n`, with input `x`. -/
def mixLane (a : Config.Lanes) (n : Nat) (x : Word) : Config.Lanes :=
  setLane a (laneOf n) (mixstep (getLane a (laneOf n)) x)

/-- Mixer steps 1 and 2 (40_lane_mixer R51) up to word `n`: the lanes after the first `n` words of `W`, taken in
ascending word index. -/
def lanesAfterWords (base : Config.Lanes) (W : Nat → Word) : Nat → Config.Lanes
  | 0 => base
  | n + 1 => mixLane (lanesAfterWords base W n) n (W n)

/-- Mixer step 3 (40_lane_mixer R51) up to zero-round step `n`. -/
def lanesAfterFinal (a : Config.Lanes) : Nat → Config.Lanes
  | 0 => a
  | n + 1 => mixLane (lanesAfterFinal a n) n 0#32

/-- The 32 final accumulators of the page words `W` (40_lane_mixer R51, after step 3). -/
def finalLanes (base : Config.Lanes) (W : Nat → Word) : Config.Lanes :=
  lanesAfterFinal (lanesAfterWords base W Config.nWords) (Config.finalRounds * Config.nLanes)

/-- Mixer step 4 (40_lane_mixer R51) up to lane `n`: lanes 0 to `n - 1` XORed in lane order. -/
def foldLanes (a : Config.Lanes) : Nat → Word
  | 0 => 0#32
  | n + 1 => foldLanes a n ^^^ getLane a (laneOf n)

/-- The Lane Mixer as a function of the 2048 page words (40_lane_mixer R51). -/
def mix (base : Config.Lanes) (W : Nat → Word) : Word :=
  foldLanes (finalLanes base W) Config.nLanes

/-- `F(r)(c)` of 40_lane_mixer R51: lane `c` after the first `r` rows. -/
def laneRows (base : Config.Lanes) (W : Nat → Word) (c : Fin 32) : Nat → Word
  | 0 => getLane base c
  | r + 1 => mixstep (laneRows base W c r) (W (Config.nLanes * r + c.val))

/-- `lane(c)` of 40_lane_mixer R51: all rows, then two zero rounds. -/
def laneFinal (base : Config.Lanes) (W : Nat → Word) (c : Fin 32) : Word :=
  mixstep (mixstep (laneRows base W c Config.nRows) 0#32) 0#32

/-! ### The Page Checksum Adapter -/

/-- The reduction to 1..65535 (41_checksum_adapter R60). -/
def reduce16 (v : Word) : Half := BitVec.ofNat 16 (v.toNat % Config.modulus + 1)

/-- The little-endian word of four bytes, lowest address first (20_memory R29). -/
def wordOfBytes (b0 b1 b2 b3 : Byte) : Word := b3 ++ b2 ++ b1 ++ b0

/-- The little-endian 16-bit value of two bytes, lowest address first (20_memory R29). -/
def halfOfBytes (b0 b1 : Byte) : Half := b1 ++ b0

/-- Word `w` of a page given by its bytes (20_memory R28, R29). -/
def wordsOf (page : Nat → Byte) (w : Nat) : Word :=
  wordOfBytes (page (4 * w)) (page (4 * w + 1)) (page (4 * w + 2)) (page (4 * w + 3))

/-- `P0`: the page with the two bytes of the Checksum Field zero (41_checksum_adapter R61). -/
def zeroField (off : Nat) (page : Nat → Byte) (o : Nat) : Byte :=
  if o = off ∨ o = off + 1 then 0#8 else page o

/-- `mix(words(P0))`: the digest of the page with its field zeroed (41_checksum_adapter R61, steps 1 and 2). -/
def pageDigest (p : Config.Params) (page : Nat → Byte) : Word :=
  mix p.base (wordsOf (zeroField p.cksumOff page))

/-- The adapter as a function of the page bytes and the block index (41_checksum_adapter R61). -/
def checksum (p : Config.Params) (page : Nat → Byte) (blockIndex : Word) : Half :=
  reduce16 (pageDigest p page ^^^ blockIndex)

end Sys2Proof.Machine
end

