-- ==== Sys2Proof/Machine/Ops.lean ====
section
/-!
DEFINITION. Named operations: memory (20_memory), the block's admitted accesses (R37), fault entry (60_exceptions R88)
and reset (70_reset_and_hazards R99), and running an operation on one block instance of the system (60_exceptions R96).
-/

namespace Sys2Proof.Machine

/-- The outcome of a step of this machine. -/
abbrev Result := Host.Outcome State Fault Refusal

/-- The memory space as data (20_memory R27). -/
abbrev Memory := List Host.Cell

/-! ### Memory -/

/-- What an address that memory does not list reads as. DESIGN CHOICE, unsafe (log 11): 0. -/
def unlisted : Byte := 0#8

/-- The byte at `a`: the last one written (20_memory R34), or `unlisted`. -/
def readByte (m : Memory) (a : Nat) : Byte :=
  match m with
  | [] => unlisted
  | c :: rest => if c.1 = a then c.2 else readByte rest a

/-- Memory with nothing listed at `a`. -/
def eraseByte (m : Memory) (a : Nat) : Memory := m.filter fun c => c.1 != a

/-- Memory with the cell `(a, v)` in its place among rising addresses. -/
def insertByte (m : Memory) (a : Nat) (v : Byte) : Memory :=
  match m with
  | [] => [(a, v)]
  | c :: rest =>
    if a < c.1 then (a, v) :: c :: rest
    else if c.1 = a then (a, v) :: rest
    else c :: insertByte rest a v

/-- The byte at `a` becomes `v`; the canonical form is kept (`memWf`). -/
def writeByte (m : Memory) (a : Nat) (v : Byte) : Memory :=
  if v = unlisted then eraseByte m a else insertByte m a v

/-- The canonical form of memory: addresses strictly rising, inside the memory space, and no entry that reads as an
unlisted address does. -/
def memWf (m : Memory) : Bool :=
  decide ((m.map Prod.fst).Pairwise (· < ·)) &&
    m.all fun c => decide (c.1 < Config.memBytes) && c.2 != unlisted

/-- `MemRead(a, 2)` of 00_scope R10, little-endian (20_memory R29). -/
def readHalf (m : Memory) (a : Nat) : Half := halfOfBytes (readByte m a) (readByte m (a + 1))

/-- `MemRead(a, 4)` of 00_scope R10, little-endian (20_memory R29). -/
def readWord (m : Memory) (a : Nat) : Word :=
  wordOfBytes (readByte m a) (readByte m (a + 1)) (readByte m (a + 2)) (readByte m (a + 3))

/-- `MemWrite(a, 2, v)` of 00_scope R10: the two bytes of `v`, least significant first (20_memory R29, R32). -/
def writeHalf (m : Memory) (a : Nat) (v : Half) : Memory :=
  writeByte (writeByte m a (v.extractLsb' 0 8)) (a + 1) (v.extractLsb' 8 8)

/-- A 4-byte write, least significant byte first (`mw4` of 30_encoding R48). -/
def writeWord (m : Memory) (a : Nat) (v : Word) : Memory :=
  writeHalf (writeHalf m a (v.extractLsb' 0 16)) (a + 2) (v.extractLsb' 16 16)

/-! ### The block's accesses -/

/-- `MemAdmits(a, n)` (20_memory R37): no entry of the platform's list takes the access out (log 6). -/
def memAdmits (pl : Platform) (a n : Nat) : Bool :=
  !(pl.refused.any fun r => r.size == n && decide (r.lo ≤ a) && decide (a < r.hi))

/-- What an access of the block reports: it completed, the platform did not admit it (20_memory R37), or its address is
outside the memory space (log 14). -/
inductive Bus (α : Type) where
  | ok (v : α)
  | busError
  | noAddress
deriving DecidableEq, Repr

/-- An access of `n` bytes at `a` that completes with `v` when the platform admits it. -/
def busAccess {α : Type} (s : State) (a n : Nat) (v : α) : Bus α :=
  if a + n ≤ Config.memBytes then
    if memAdmits s.platform a n then .ok v else .busError
  else .noAddress

/-- The field read of 20_memory R32. -/
def busReadHalf (s : State) (a : Nat) : Bus Half := busAccess s a 2 (readHalf s.mem a)

/-- The word read of 20_memory R32. -/
def busReadWord (s : State) (a : Nat) : Bus Word := busAccess s a 4 (readWord s.mem a)

/-- The field write of 20_memory R32: the memory after it. -/
def busWriteHalf (s : State) (a : Nat) (v : Half) : Bus Memory := busAccess s a 2 (writeHalf s.mem a v)

/-! ### State updates -/

/-- The addressed block becomes `b`. -/
def State.setBlk (s : State) (b : Block) : State := { s with blk := b }

/-- Memory becomes `m`. -/
def State.setMem (s : State) (m : Memory) : State := { s with mem := m }

/-- The host script's result list gets `v` (30_encoding R48). -/
def State.pushResult (s : State) (v : Word) : State := { s with results := s.results ++ [v] }

/-! ### Fault entry and reset -/

/-- `raise Fault(cause)` (60_exceptions R88): the first cause is kept; the phase becomes `FAULTED`, or `ABORT` exactly
where R86 says so. Nothing else is saved. -/
def Block.raiseFault (b : Block) (cause : Cause) (dest : Phase) : Block :=
  { b with cause := if b.cause = .none then cause else b.cause, phase := dest }

/-- Fault entry on the addressed block. -/
def raiseFault (cause : Cause) (dest : Phase) (s : State) : State :=
  s.setBlk (s.blk.raiseFault cause dest)

/-- Reset of the addressed block, the only way out of `FAULTED` (60_exceptions R90, 70_reset_and_hazards R99): the values
of 10_state R25. Memory is untouched (R100). -/
def resetBlock (s : State) : Result :=
  .next { s with blk := Block.reset s.freeCtr, freeCtr := s.freeCtr + 1 }

/-! ### Block instances -/

/-- Run `f` with block instance `k` in the addressed place, and put it back (60_exceptions R96, log 16). -/
def onBlock (k : Nat) (f : State → Result) (s : State) : Result :=
  match k with
  | 0 => f s
  | j + 1 =>
    match s.others[j]? with
    | none => .refused .noSuchBlock
    | some b =>
      match f (s.setBlk b) with
      | .next t => .next { t with blk := s.blk, others := s.others.set j t.blk }
      | .fault r => .fault r
      | .refused r => .refused r

/-- Block instance `k`, if the system has it. -/
def blockAt (s : State) (k : Nat) : Option Block :=
  match k with
  | 0 => some s.blk
  | j + 1 => s.others[j]?

end Sys2Proof.Machine
end

