-- ==== Sys2Proof/Machine/Command.lean ====
section
/-!
DEFINITION. A write to `CMD` (42_host_access R75 to R77): acceptance of a command, an illegal word, and what happens
while the block is busy or faulted.
-/

namespace Sys2Proof.Machine

/-- A write to `CMD`, `PAGE_BASE` or `BLKIDX`: `whenIdle` if the block is idle; dropped with `WRERR <- 1` while busy
(42_host_access R76); dropped while faulted (R77). -/
def guardedWrite (whenIdle : State → Result) (s : State) : Result :=
  match s.blk.phase with
  | .idle => whenIdle s
  | .faulted => .next s
  | .save | .zero | .init | .absorb | .final | .fold | .restore | .salt | .reduce | .abort =>
    .next (s.setBlk { s.blk with wrerr := true })

/-- The first phase of a command (42_host_access R75: `PHASE <- (OP = 0) ? INIT : SAVE`). -/
def entryPhase : Instr → Phase
  | .mix => .init
  | .cksum => .save

/-- The block after a command is accepted (42_host_access R75 case 3). -/
def Block.accept (b : Block) (i : Instr) : Block :=
  { b with done := false, op := i, idx := 0#11, phase := entryPhase i }

/-- A legal command word while idle (42_host_access R75 cases 2 and 3; a page that is not ordinary memory is refused,
20_memory R38, log 9). -/
def acceptCommand (i : Instr) (s : State) : Result :=
  if pageBaseOk s.blk.pageBase then
    if pageOrdinary s.platform s.blk.pageBase then .next (s.setBlk (s.blk.accept i))
    else .refused .pageNotOrdinary
  else .next (raiseFault .badBase .faulted s)

/-- An illegal word written to `CMD` (60_exceptions R84; while busy or faulted as any `CMD` write, R76, R77). -/
def illegalCommand (s : State) : Result :=
  guardedWrite (fun t => .next (raiseFault .illegalCmd .faulted t)) s

end Sys2Proof.Machine
end

