-- ==== Sys2Proof/Machine/ChecksumAdapter.lean ====
section
/-!
DEFINITION. The Page Checksum Adapter: command `CKSUM` (41_checksum_adapter R62) and micro-operations `SAVE`, `ZERO`,
`RESTORE`, `SALT`, `REDUCE` (R63 to R67). A command's execution is its micro-operations, one per step (log 1).
-/

namespace Sys2Proof.Machine

/-- `CKSUM` (41_checksum_adapter R62): the write of its word to `CMD`. Accepted, the block goes to `SAVE` and its
micro-operations run, one a step, until `REDUCE`. -/
def execCksum (s : State) : Result := guardedWrite (acceptCommand .cksum) s

/-- `SAVE` (41_checksum_adapter R63); a refused read goes to `ABORT` (60_exceptions R86). -/
def opSave (p : Config.Params) (s : State) : Result :=
  match busReadHalf s (fieldAddr p s.blk) with
  | .ok v => .next (s.setBlk { s.blk with saved := v, phase := .zero })
  | .busError => .next (raiseFault .busError .abort s)
  | .noAddress => .fault .noSuchAddress

/-- `ZERO` (41_checksum_adapter R64); a refused write goes to `ABORT` (60_exceptions R86). -/
def opZero (p : Config.Params) (s : State) : Result :=
  match busWriteHalf s (fieldAddr p s.blk) 0#16 with
  | .ok m => .next ((s.setBlk { s.blk with savedValid := true, phase := .init }).setMem m)
  | .busError => .next (raiseFault .busError .abort s)
  | .noAddress => .fault .noSuchAddress

/-- `RESTORE` (41_checksum_adapter R65); a refused write goes to `FAULTED` directly, with `SAVED_VALID` still 1
(60_exceptions R86). -/
def opRestore (p : Config.Params) (s : State) : Result :=
  match busWriteHalf s (fieldAddr p s.blk) s.blk.saved with
  | .ok m => .next ((s.setBlk { s.blk with savedValid := false, phase := .salt }).setMem m)
  | .busError => .next (raiseFault .busError .faulted s)
  | .noAddress => .fault .noSuchAddress

/-- `SALT` (41_checksum_adapter R66). -/
def opSalt (s : State) : Result :=
  .next (s.setBlk { s.blk with comb := s.blk.digest ^^^ s.blk.blkidx, phase := .reduce })

/-- `REDUCE` (41_checksum_adapter R67). -/
def opReduce (s : State) : Result :=
  .next (s.setBlk { s.blk with result := reduce16 s.blk.comb, done := true, phase := .idle })

end Sys2Proof.Machine
end

