-- ==== Sys2Proof/Machine/LaneMixer.lean ====
section
/-!
DEFINITION. The Lane Mixer: command `MIX` (40_lane_mixer R52) and micro-operations `INIT`, `ABSORB`, `FINAL`, `FOLD`
(R53 to R56). A command's execution is its micro-operations, one per step of the block (log 1).
-/

namespace Sys2Proof.Machine

/-- `MIX` (40_lane_mixer R52): the write of its word to `CMD`. Accepted, the block goes to `INIT` and its micro-operations
run, one a step, until the last `FOLD`. -/
def execMix (s : State) : Result := guardedWrite (acceptCommand .mix) s

/-- `INIT` (40_lane_mixer R53). -/
def opInit (p : Config.Params) (s : State) : Result :=
  .next (s.setBlk { s.blk with acc := p.base, phase := .absorb, idx := 0#11 })

/-- The sequencer after a good `ABSORB` (40_lane_mixer R54). -/
def Block.absorbed (b : Block) (x : Word) : Block :=
  if b.idx.toNat = 2047 then { b with acc := mixLane b.acc b.idx.toNat x, phase := .final, idx := 0#11 }
  else { b with acc := mixLane b.acc b.idx.toNat x, idx := b.idx + 1#11 }

/-- `ABSORB` (40_lane_mixer R54); a refused read goes to `ABORT` (60_exceptions R86). -/
def opAbsorb (s : State) : Result :=
  match busReadWord s (wordAddr s.blk) with
  | .ok x => .next (s.setBlk (s.blk.absorbed x))
  | .busError => .next (raiseFault .busError .abort s)
  | .noAddress => .fault .noSuchAddress

/-- The sequencer after `FINAL` (40_lane_mixer R55). -/
def Block.finalized (b : Block) : Block :=
  if b.idx.toNat = 63 then { b with acc := mixLane b.acc b.idx.toNat 0#32, phase := .fold, idx := 0#11 }
  else { b with acc := mixLane b.acc b.idx.toNat 0#32, idx := b.idx + 1#11 }

/-- `FINAL` (40_lane_mixer R55). -/
def opFinal (s : State) : Result := .next (s.setBlk s.blk.finalized)

/-- `DIGEST` after a `FOLD` step (40_lane_mixer R56): the old value never contributes at `IDX = 0`. An `IDX` above 31
cannot occur in `FOLD`; the lane is `IDX mod 32` (log 17). -/
def foldDigest (b : Block) : Word :=
  if b.idx.toNat = 0 then getLane b.acc (laneOf 0) else b.digest ^^^ getLane b.acc (laneOf b.idx.toNat)

/-- The block after `FOLD` (40_lane_mixer R56): after lane 31 a `MIX` is done and a `CKSUM` goes on to `RESTORE`. -/
def Block.folded (b : Block) : Block :=
  if b.idx.toNat = 31 then
    match b.op with
    | .mix => { b with digest := foldDigest b, idx := 0#11, done := true, phase := .idle }
    | .cksum => { b with digest := foldDigest b, idx := 0#11, phase := .restore }
  else { b with digest := foldDigest b, idx := b.idx + 1#11 }

/-- `FOLD` (40_lane_mixer R56). -/
def opFold (s : State) : Result := .next (s.setBlk s.blk.folded)

end Sys2Proof.Machine
end

