-- ==== Sys2Proof/Machine/Sequencer.lean ====
section
/-!
DEFINITION. The sequencer (10_state R20): the micro-operation of each phase, and `ABORT` (60_exceptions R89).
-/

namespace Sys2Proof.Machine

/-- `ABORT` (60_exceptions R89): the field is written back if it is zeroed, and the block is faulted either way. -/
def opAbort (p : Config.Params) (s : State) : Result :=
  if s.blk.savedValid then
    match busWriteHalf s (fieldAddr p s.blk) s.blk.saved with
    | .ok m => .next ((s.setBlk { s.blk with savedValid := false, phase := .faulted }).setMem m)
    | .busError => .next (s.setBlk { s.blk with phase := .faulted })
    | .noAddress => .fault .noSuchAddress
  else .next (s.setBlk { s.blk with phase := .faulted })

/-- The block's next micro-operation (10_state R20, 30_encoding R47). In `IDLE` and `FAULTED` the block takes no step. -/
def microOp (p : Config.Params) (s : State) : Result :=
  match s.blk.phase with
  | .idle => .next s
  | .save => opSave p s
  | .zero => opZero p s
  | .init => opInit p s
  | .absorb => opAbsorb s
  | .final => opFinal s
  | .fold => opFold s
  | .restore => opRestore p s
  | .salt => opSalt s
  | .reduce => opReduce s
  | .abort => opAbort p s
  | .faulted => .next s

end Sys2Proof.Machine
end

