-- ==== Sys2Proof/Machine/Dispatch.lean ====
section
/-!
DEFINITION. The meaning of each command, one arm per constructor of Instr (30_encoding R44).
-/

namespace Sys2Proof.Machine

def exec (i : Instr) (s : State) : Host.Outcome State Fault Refusal :=
  match i with
  | .mix => Sys2Proof.Machine.execMix s
  | .cksum => Sys2Proof.Machine.execCksum s

end Sys2Proof.Machine
end

