-- ==== Sys2Proof/Machine/HostAccess.lean ====
section
/-!
DEFINITION. The host's moves (42_host_access, 30_encoding R48): register reads and writes, memory accesses, reset,
`wait`; and the turn taking of host, blocks and platform (70_reset_and_hazards R108).
-/

namespace Sys2Proof.Machine

/-! ### The register window -/

/-- The value of a register as read (42_host_access R73). -/
def regValue (b : Block) : Reg → Word
  | .cmd => 0#32
  | .status => status b
  | .pageBase => b.pageBase
  | .blkidx => b.blkidx
  | .digest => b.digest
  | .result => resultReg b
  | .saved => savedReg b
  | .reserved => 0#32

/-- `RegRead(off)` (42_host_access R73): the result list gets the value, nothing else changes. A read outside the window
does not reach the block and gets a free value (R78, log 13). -/
def regRead (off : Nat) (size : AccessSize) (s : State) : Result :=
  match regTarget off size with
  | .reg r => .next (s.pushResult (regValue s.blk r))
  | .outside => .next { s.pushResult (Config.freeRead s.freeCtr) with freeCtr := s.freeCtr + 1 }
  | .badShape => .refused .registerAccessShape

/-- A write to `CMD` (42_host_access R75 to R77): the word's command, or the illegal-word fault. -/
def writeCmd (w : Word) (s : State) : Result :=
  match decode w with
  | .command i => exec i s
  | .illegal _ => illegalCommand s

/-- A write to `PAGE_BASE` (42_host_access R74, R76, R77). No check is made here. -/
def writePageBase (v : Word) (s : State) : Result :=
  guardedWrite (fun t => .next (t.setBlk { t.blk with pageBase := v })) s

/-- A write to `BLKIDX` (42_host_access R74, R76, R77). -/
def writeBlkidx (v : Word) (s : State) : Result :=
  guardedWrite (fun t => .next (t.setBlk { t.blk with blkidx := v })) s

/-- `RegWrite(off, v)` (42_host_access R74 to R79). Writes to read-only and reserved registers and outside the window are
dropped in every phase (R78). -/
def regWrite (off : Nat) (size : AccessSize) (v : Word) (s : State) : Result :=
  match regTarget off size with
  | .reg .cmd => writeCmd v s
  | .reg .pageBase => writePageBase v s
  | .reg .blkidx => writeBlkidx v s
  | .reg .status => .next s
  | .reg .digest => .next s
  | .reg .result => .next s
  | .reg .saved => .next s
  | .reg .reserved => .next s
  | .outside => .next s
  | .badShape => .refused .registerAccessShape

/-! ### Host memory accesses -/

/-- The value a host read of a size returns, zero-extended (30_encoding R48: little-endian). -/
def readSized (m : Memory) (size : AccessSize) (a : Nat) : Word :=
  match size with
  | .byte => (readByte m a).setWidth 32
  | .half => (readHalf m a).setWidth 32
  | .word => readWord m a

/-- Memory after a host write of the low bytes of `v` (30_encoding R48: little-endian). -/
def writeSized (m : Memory) (size : AccessSize) (a : Nat) (v : Word) : Memory :=
  match size with
  | .byte => writeByte m a (v.extractLsb' 0 8)
  | .half => writeHalf m a (v.extractLsb' 0 16)
  | .word => writeWord m a v

/-- `mr<n>` (30_encoding R48, 42_host_access R80; logs 7, 8, 9, 14, 19, 20). -/
def hostMemRead (size : AccessSize) (a : Nat) (s : State) : Result :=
  if a + size.bytes ≤ Config.memBytes then
    match memTarget s.platform a size.bytes with
    | .memory => .next (s.pushResult (readSized s.mem size a))
    | .window k off => onBlock k (regRead off size) s
    | .device => .refused .deviceAccess
  else .fault .noSuchAddress

/-- `mw<n>` (30_encoding R48, 42_host_access R80; logs 7, 8, 9, 14, 19). -/
def hostMemWrite (size : AccessSize) (a : Nat) (v : Word) (s : State) : Result :=
  if a + size.bytes ≤ Config.memBytes then
    match memTarget s.platform a size.bytes with
    | .memory => .next (s.setMem (writeSized s.mem size a v))
    | .window k off => onBlock k (regWrite off size v) s
    | .device => .refused .deviceAccess
  else .fault .noSuchAddress

/-! ### Turns -/

/-- The turn is given back: `m` is again the first move to take. -/
def retake (m : Move) (r : Result) : Result :=
  match r with
  | .next t => .next { t with turns := m :: t.turns }
  | .fault e => .fault e
  | .refused e => .refused e

/-- `wait` on block `k` (30_encoding R48, 42_host_access R81): while `BUSY = 1` the poll changes nothing, the block takes
its next micro-operation and the host polls again (log 21); the last value read is the result. -/
def waitFor (p : Config.Params) (k : Nat) (s : State) : Result :=
  onBlock k (fun t =>
    if t.blk.phase.busy then retake (.wait k) (microOp p t)
    else regRead 0x04 .word t) s

/-- One move of one agent, in a system with the parameters `p` (10_state R20, R26, 30_encoding R48,
70_reset_and_hazards R108). -/
def doMove (p : Config.Params) (m : Move) (s : State) : Result :=
  match m with
  | .block k => onBlock k (microOp p) s
  | .regRead k off size => onBlock k (regRead off size) s
  | .regWrite k off size v => onBlock k (regWrite off size v) s
  | .memRead size a => hostMemRead size a s
  | .memWrite size a v => hostMemWrite size a v s
  | .wait k => waitFor p k s
  | .reset k => onBlock k resetBlock s
  | .setAdmission refused => .next { s with platform := { s.platform with refused := refused } }

/-- The number of the first busy block instance, if there is one. -/
def firstBusy (s : State) : Option Nat :=
  if s.blk.phase.busy then some 0
  else (s.others.findIdx? fun b => b.phase.busy).map (· + 1)

/-- One step of the system: the first move in `turns` is taken. With none left, the first busy block takes its next
micro-operation (70_reset_and_hazards R108: weak fairness, log 3); with no block busy nothing moves (R109). -/
def takeTurn (p : Config.Params) (s : State) : Result :=
  match s.turns with
  | m :: rest => doMove p m { s with turns := rest }
  | [] =>
    match firstBusy s with
    | some k => onBlock k (microOp p) s
    | none => .next s

end Sys2Proof.Machine
end

