-- ==== Sys2Proof/Machine/Step.lean ====
section
/-!
DEFINITION. The step of the system, and how a command word reaches it (log 2).
-/

namespace Sys2Proof.Machine

/-- One step: one move of one agent, with the parameters of this machine (10_state R26). -/
def step (s : State) : Host.Outcome State Fault Refusal := takeTurn Config.params s

/-- `s` with the write of a command word to block 0's `CMD` as its next move (30_encoding R43: the word is a value in a
register write, log 2). Bits of the word above `nbits` are 0. -/
def State.withFetchWord (s : State) (nbits w : Nat) : State :=
  { s with turns := .regWrite 0 0x00 .word (BitVec.ofNat 32 (w % 2 ^ nbits)) :: s.turns }

end Sys2Proof.Machine
end

