-- ==== Sys2Proof/Machine/Script.lean ====
section
/-!
DEFINITION. Host scripts (30_encoding R48): the script lines and the pseudo-instructions, as moves on block 0.
-/

namespace Sys2Proof.Machine.Script

/-- `wr <REG>, <value>`. -/
def wr (r : Reg) (v : Word) : Move := .regWrite 0 r.offset .word v

/-- `rd <REG>`. -/
def rd (r : Reg) : Move := .regRead 0 r.offset .word

/-- `cmd MIX` and `cmd CKSUM`: a write of the command word to `CMD`. -/
def cmd (i : Instr) : Move := wr .cmd (encode i)

/-- `wait`. -/
def wait : Move := .wait 0

/-- `mix <base>`. -/
def mixPage (base : Word) : List Move := [wr .pageBase base, cmd .mix, wait, rd .digest]

/-- `cksum <base>, <blk>`. -/
def cksumPage (base blk : Word) : List Move :=
  [wr .pageBase base, wr .blkidx blk, cmd .cksum, wait, rd .result]

end Sys2Proof.Machine.Script
end

