-- ==== Sys2Proof/WellFormed.lean ====
section
/-!
DEFINITION. What is checked before the machine runs: instructions (nothing to check, 30_encoding R46), command words
(R43, R45), the geometry record (00_scope R6) and the offset of the Checksum Field (20_memory R30).
-/

namespace Sys2Proof.WellFormed

/-- A command has no operand, so each one is well formed (30_encoding R46). -/
def instrOk : Instr → Bool
  | .mix => true
  | .cksum => true

/-- The form of a command word (30_encoding R43, R44): `rsvd` is 0 and `opcode` names a command. -/
def commandWordOk (w : Word) : Bool :=
  w.extractLsb' 8 24 == 0#24 && (w.extractLsb' 0 8 == 0x01#8 || w.extractLsb' 0 8 == 0x02#8)

/-- The geometry check of 00_scope R6: the page size is a whole number of rows, and that number is `nRows`. -/
def geometryOk (g : Config.Geometry) : Bool :=
  decide (0 < g.wordBytes * g.nLanes) && g.pageSize % (g.wordBytes * g.nLanes) == 0 &&
    g.nRows == g.pageSize / (g.wordBytes * g.nLanes)

/-- The constraint on `CKSUM_OFF` (00_scope R7, 20_memory R30): even and at most 8190. -/
def fieldOffsetOk (off : Nat) : Bool :=
  off % 2 == 0 && decide (off ≤ 8190)

/-- A parameter record is well formed when its field offset is (a table of 32 words has no constraint, D2). -/
def paramsOk (p : Config.Params) : Bool := fieldOffsetOk p.cksumOff

/-- Building the parameters: a geometry that fails the check of R6 or is not the block's own (93 U1), and an odd or
out-of-range field offset (93 U6), are refused. -/
def build (g : Config.Geometry) (base : Config.Lanes) (off : Nat) : Option Config.Params :=
  if geometryOk g && g == Config.geometry && fieldOffsetOk off then
    some { base := base, cksumOff := off }
  else
    none

end Sys2Proof.WellFormed
end

