-- ==== Sys2Proof/Safety.lean ====
section
/-!
DEFINITION. The terms claims are stated in: a page and its admission, the invariant of a block and of the system, and
what a command in flight has computed so far from the words it has read.
-/

namespace Sys2Proof.Safety

open Sys2Proof.Machine

/-! ### The page of a block -/

/-- The bytes of the Page Buffer at `PAGE_BASE`, by offset (20_memory R28). -/
def pageBytes (s : State) (o : Nat) : Byte := readByte s.mem (s.blk.pageBase.toNat + o)

/-- The words of the Page Buffer (20_memory R28, R29). -/
def pageWords (s : State) : Nat → Word := wordsOf (pageBytes s)

/-- The platform admits every word read of the page (20_memory R37: the launch premise). -/
def WordsAdmitted (s : State) : Prop :=
  ∀ w < Config.nWords, memAdmits s.platform (s.blk.pageBase.toNat + 4 * w) 4 = true

/-- The platform admits the accesses to the Checksum Field (20_memory R37: the launch premise). -/
def FieldAdmitted (p : Config.Params) (s : State) : Prop := memAdmits s.platform (fieldAddr p s.blk) 2 = true

/-- A command may be issued: the block is idle, `PAGE_BASE` is legal and the page is ordinary memory (42_host_access
R75, 20_memory R31, R38). -/
structure Ready (s : State) : Prop where
  idle : s.blk.phase = .idle
  baseOk : pageBaseOk s.blk.pageBase = true
  ordinary : pageOrdinary s.platform s.blk.pageBase = true

/-- The host's premise that the page is not a new page (41_checksum_adapter R72): uninterpreted, read by no step. -/
def PageInitialised (s : State) : Prop :=
  Config.isNewPage ((List.range Config.pageSize).map (pageBytes s)) = false

/-- `n` steps of the system, stopping at the first fault or refusal. -/
def runFor : Nat → State → Result
  | 0, s => .next s
  | n + 1, s =>
    match step s with
    | .next t => runFor n t
    | .fault r => .fault r
    | .refused r => .refused r

/-- Micro-operations of a command that meets no bus error (10_state R20, 70_reset_and_hazards R108). -/
def commandSteps : Instr → Nat
  | .mix => 2145
  | .cksum => 2150

/-- The bound on the micro-operations of a command that ends in a fault (70_reset_and_hazards R108). -/
def faultSteps : Instr → Nat
  | .mix => 2050
  | .cksum => 2148

/-! ### The invariant -/

/-- The phases inside the zero window, between `ZERO` and `RESTORE` (10_state R18, 41_checksum_adapter R64). -/
def inWindow : Phase → Bool
  | .init | .absorb | .final | .fold | .restore => true
  | .idle | .save | .zero | .salt | .reduce | .abort | .faulted => false

/-- The phases only a `CKSUM` has (10_state R20). -/
def adapterOnly : Phase → Bool
  | .save | .zero | .restore | .salt | .reduce => true
  | .idle | .init | .absorb | .final | .fold | .abort | .faulted => false

/-- The phases in which `IDX` counts, or keeps what it was when a fault came (10_state R20, 60_exceptions R86). -/
def usesIdx : Phase → Bool
  | .absorb | .final | .fold | .abort | .faulted => true
  | .idle | .save | .zero | .init | .restore | .salt | .reduce => false

/-- What holds of every block instance in every state a run reaches. -/
structure BlockInv (pl : Platform) (b : Block) : Prop where
  /-- A busy block works on a legal page (20_memory R31). -/
  baseOk : b.phase.busy = true → pageBaseOk b.pageBase = true
  /-- A busy block works on ordinary memory (20_memory R38). -/
  ordinary : b.phase.busy = true → pageOrdinary pl b.pageBase = true
  /-- `BUSY` and `DONE` are never both 1 (10_state R21). -/
  notDone : b.phase.busy = true → b.done = false
  /-- `IDX` in `FINAL` (10_state R20). -/
  finalIdx : b.phase = .final → b.idx.toNat < 64
  /-- `IDX` in `FOLD` (10_state R20). -/
  foldIdx : b.phase = .fold → b.idx.toNat < 32
  /-- `IDX` is 0 in the phases that do not repeat (10_state R20). -/
  restIdx : usesIdx b.phase = false → b.idx = 0#11
  /-- `CAUSE` is 0 exactly while no fault has come (10_state R22). -/
  causeNone : b.cause = .none ↔ b.phase ≠ .abort ∧ b.phase ≠ .faulted
  /-- Only a bus error leads to `ABORT` (60_exceptions R86). -/
  abortCause : b.phase = .abort → b.cause = .busError
  /-- The adapter's phases belong to `CKSUM` (10_state R20). -/
  adapterOp : adapterOnly b.phase = true → b.op = .cksum
  /-- `SAVED_VALID` is 1 only in the zero window, or after a fault in it (10_state R18). -/
  savedOnly : b.savedValid = true →
    b.op = .cksum ∧ (inWindow b.phase = true ∨ b.phase = .abort ∨ b.phase = .faulted)
  /-- `SAVED_VALID` is 1 throughout the zero window of a `CKSUM` (10_state R18). -/
  savedThere : inWindow b.phase = true → b.op = .cksum → b.savedValid = true
  /-- `REDUCE` finds the digest combined with the block index (41_checksum_adapter R66). -/
  combined : b.phase = .reduce → b.comb = b.digest ^^^ b.blkidx
  /-- A completed `CKSUM` leaves a non-zero `RESULT` (41_checksum_adapter R70). -/
  resultNonzero : b.done = true → b.op = .cksum → b.result ≠ 0#16

/-- What holds of every state a run reaches: memory is canonical and every block instance meets `BlockInv`. -/
structure SysInv (s : State) : Prop where
  memory : memWf s.mem = true
  own : BlockInv s.platform s.blk
  others : ∀ b ∈ s.others, BlockInv s.platform b

/-! ### A command in flight -/

/-- The next step is block 0's own, if it is busy: its turn is the next move, the host polls it with `wait` (log 21), or
no move is left (log 3). -/
def OwnTurn (s : State) : Prop :=
  s.turns = [] ∨ s.turns.head? = some (.block 0) ∨ s.turns.head? = some (.wait 0)

/-- What a block that runs a command has computed when the words it reads are those of `W` (40_lane_mixer R51, R59,
41_checksum_adapter R61, R68): in `IDLE`, the command's outputs. -/
def Tracks (base : Config.Lanes) (W : Nat → Word) (b : Block) : Prop :=
  match b.phase with
  | .save | .zero | .init => True
  | .absorb => b.acc = lanesAfterWords base W b.idx.toNat
  | .final => b.idx.toNat < 64 ∧ b.acc = lanesAfterFinal (lanesAfterWords base W 2048) b.idx.toNat
  | .fold => b.idx.toNat < 32 ∧ b.acc = finalLanes base W ∧
      (b.idx.toNat ≠ 0 → b.digest = foldLanes (finalLanes base W) b.idx.toNat)
  | .restore | .salt => b.op = .cksum ∧ b.acc = finalLanes base W ∧ b.digest = mix base W
  | .reduce => b.op = .cksum ∧ b.acc = finalLanes base W ∧ b.digest = mix base W ∧
      b.comb = mix base W ^^^ b.blkidx
  | .idle => b.done = true ∧ b.acc = finalLanes base W ∧ b.digest = mix base W ∧
      (b.op = .cksum → b.comb = mix base W ^^^ b.blkidx ∧ b.result = reduce16 (mix base W ^^^ b.blkidx))
  | .abort | .faulted => True

end Sys2Proof.Safety
end

