-- ==== Sys2Proof/Certificates/Slice0/Obligations.lean ====
section
/-!
DEFINITION. The statements about this machine, each citing the rule of spec/ it formalises. A state equation such as
`exec i s = .next (s.setBlk b)` is also the frame: every field it does not name is as it was.
-/

open Sys2Proof Sys2Proof.Machine Sys2Proof.Safety

/-! ### Encoding (30_encoding) -/

/-- 30_encoding R44 and R45 on single words: the two command words, opcode 0, opcode 3 (V54, V56), and a set reserved
bit (V55). -/
def Obligations.CommandWordsDecode : Prop :=
  decode 0x00000001#32 = .command .mix ∧ decode 0x00000002#32 = .command .cksum ∧
    encode .mix = 0x00000001#32 ∧ encode .cksum = 0x00000002#32 ∧
    decode 0x00000000#32 = .illegal (.unknownOpcode 0x00#8) ∧
    decode 0x00000003#32 = .illegal (.unknownOpcode 0x03#8) ∧ decode 0x00000102#32 = .illegal .reservedBits

/-- 30_encoding R44: "exactly two of the 2^32 words are commands", and the decoder is total. -/
def Obligations.OnlyTwoWordsAreCommands : Prop :=
  ∀ w : Word,
    (decode w = .command .mix ↔ w = 0x00000001#32) ∧ (decode w = .command .cksum ↔ w = 0x00000002#32) ∧
      ((∃ why, decode w = .illegal why) ↔ w ≠ 0x00000001#32 ∧ w ≠ 0x00000002#32)

/-- Decoding and encoding are inverse to each other (30_encoding R43, R44, R49). -/
def Obligations.DecodeEncodeAgree : Prop :=
  (∀ i : Instr, decode (encode i) = .command i) ∧
    ∀ (w : Word) (i : Instr), decode w = .command i → encode i = w

/-! ### Issuing a command (42_host_access R75 to R77) -/

/-- 42_host_access R75: a write to `CMD` while idle does exactly the first of the three cases whose condition holds,
and changes nothing else. The third case is stated for a page of ordinary memory (20_memory R38): the other pages are
the model's refusal (log 9, `PageNotOrdinaryRefused`). -/
def Obligations.CommandAcceptance : Prop :=
  ∀ (w : Word) (s : State), s.blk.phase = .idle →
    (w ≠ 0x00000001#32 ∧ w ≠ 0x00000002#32 →
      regWrite 0x00 .word w s = .next (s.setBlk { s.blk with
        cause := if s.blk.cause = .none then .illegalCmd else s.blk.cause, phase := .faulted })) ∧
    (w = 0x00000001#32 ∨ w = 0x00000002#32 →
      s.blk.pageBase.toNat % 4 ≠ 0 ∨ 0xFFFFE000 < s.blk.pageBase.toNat →
      regWrite 0x00 .word w s = .next (s.setBlk { s.blk with
        cause := if s.blk.cause = .none then .badBase else s.blk.cause, phase := .faulted })) ∧
    (w = 0x00000001#32 ∨ w = 0x00000002#32 →
      s.blk.pageBase.toNat % 4 = 0 ∧ s.blk.pageBase.toNat ≤ 0xFFFFE000 →
      pageOrdinary s.platform s.blk.pageBase = true →
      regWrite 0x00 .word w s = .next (s.setBlk { s.blk with
        done := false
        op := if w = 0x00000002#32 then .cksum else .mix
        idx := 0#11
        phase := if w = 0x00000002#32 then .save else .init }))

/-- 20_memory R38: a command on a page that is not ordinary memory is outside the spec and is refused by name (log 9).
-/
def Obligations.PageNotOrdinaryRefused : Prop :=
  ∀ (i : Instr) (s : State), s.blk.phase = .idle → pageBaseOk s.blk.pageBase = true →
    pageOrdinary s.platform s.blk.pageBase = false → exec i s = .refused .pageNotOrdinary

/-- 42_host_access R76: a write to `CMD`, `PAGE_BASE` or `BLKIDX` while busy is dropped and sets `WRERR`; nothing else
changes. -/
def Obligations.BusyWritesDropped : Prop :=
  ∀ (off : Nat) (v : Word) (s : State), s.blk.phase.busy = true → off = 0x00 ∨ off = 0x08 ∨ off = 0x0C →
    regWrite off .word v s = .next (s.setBlk { s.blk with wrerr := true })

/-- A command issued while busy is dropped and sets `WRERR`; one issued while faulted is dropped (42_host_access R76,
R77). -/
def Obligations.CommandsTurnedAway : Prop :=
  ∀ (i : Instr) (s : State),
    (s.blk.phase.busy = true → exec i s = .next (s.setBlk { s.blk with wrerr := true })) ∧
      (s.blk.phase = .faulted → exec i s = .next s)

/-- 42_host_access R77: while faulted, a write to any register is dropped and no state changes. -/
def Obligations.FaultedWritesDropped : Prop :=
  ∀ (off : Nat) (v : Word) (s : State), s.blk.phase = .faulted → off % 4 = 0 → regWrite off .word v s = .next s

/-- What a command leaves unchanged on every path to a next state (42_host_access R75): memory, the platform, the
other blocks, the scripts, and every register but `DONE`, `OP`, `IDX`, `PHASE`, `CAUSE` and `WRERR`. -/
def Obligations.CommandFrame : Prop :=
  ∀ (i : Instr) (s t : State), exec i s = .next t →
    t = s.setBlk t.blk ∧ t.blk.acc = s.blk.acc ∧ t.blk.pageBase = s.blk.pageBase ∧
      t.blk.blkidx = s.blk.blkidx ∧ t.blk.digest = s.blk.digest ∧ t.blk.result = s.blk.result ∧
      t.blk.saved = s.blk.saved ∧ t.blk.savedValid = s.blk.savedValid ∧ t.blk.comb = s.blk.comb

/-! ### The commands, from issue to completion -/

/-- `MIX` completes (40_lane_mixer R52, R59, 70_reset_and_hazards R108): issued to a ready block whose page the
platform admits, with no other agent moving (an empty list of moves, log 3), it ends after 2145 micro-operations with
the Lane Mixer's lanes and digest of the page, `DONE` set, and nothing else changed: no byte of memory, no other
register. -/
def Obligations.MixRuns : Prop :=
  ∀ s : State, Ready s → WordsAdmitted s → s.turns = [] →
    ∃ t, exec .mix s = .next t ∧
      runFor 2145 t = .next (s.setBlk { s.blk with
        acc := finalLanes Config.base (pageWords s)
        digest := mix Config.base (pageWords s)
        phase := .idle
        idx := 0#11
        op := .mix
        done := true })

/-- `CKSUM` completes (41_checksum_adapter R62, R68, 70_reset_and_hazards R108): issued to a ready block whose page
the platform admits, with no other agent moving (an empty list of moves, log 3), it ends after 2150 micro-operations
with the checksum of the page, the digest of the page with its field zeroed, `SAVED` the field, and memory as it was.
-/
def Obligations.CksumRuns : Prop :=
  ∀ s : State, Ready s → WordsAdmitted s → FieldAdmitted Config.params s → memWf s.mem = true → s.turns = [] →
    ∃ t, exec .cksum s = .next t ∧
      runFor 2150 t = .next (s.setBlk { s.blk with
        acc := finalLanes Config.base (wordsOf (zeroField Config.cksumOff (pageBytes s)))
        digest := pageDigest Config.params (pageBytes s)
        comb := pageDigest Config.params (pageBytes s) ^^^ s.blk.blkidx
        result := checksum Config.params (pageBytes s) s.blk.blkidx
        saved := readHalf s.mem (fieldAddr Config.params s.blk)
        savedValid := false
        phase := .idle
        idx := 0#11
        op := .cksum
        done := true })

/-- Every accepted command ends (70_reset_and_hazards R108, 42_host_access R81): with no other agent moving (an empty
list of moves, log 3), and whatever accesses the platform refuses, either it completes after exactly 2145 or 2150
micro-operations with `DONE = 1` and no fault, or it faults with `BUS_ERROR` after at most 2050 or 2148 with `DONE =
0`. -/
def Obligations.EveryCommandEnds : Prop :=
  ∀ (i : Instr) (s : State), Ready s → BlockInv s.platform s.blk → s.turns = [] →
    ∃ t n u, exec i s = .next t ∧ runFor n t = .next u ∧
      ((u.blk.phase = .idle ∧ u.blk.done = true ∧ u.blk.cause = .none ∧ n = commandSteps i) ∨
        (u.blk.phase = .faulted ∧ u.blk.done = false ∧ u.blk.cause = .busError ∧ n ≤ faultSteps i))

/-- Inside the zero window (10_state R18, 70_reset_and_hazards R103): after the second to the 2147th micro-operation of
a `CKSUM`, with no other agent moving (log 3), the field reads 0 in memory, `SAVED_VALID` is 1 and `SAVED` holds what
the field held; every other byte is as it was. -/
def Obligations.ZeroWindowSpan : Prop :=
  ∀ s : State, Ready s → WordsAdmitted s → FieldAdmitted Config.params s → s.turns = [] →
    ∃ t, exec .cksum s = .next t ∧
      ∀ k, 2 ≤ k → k ≤ 2147 → ∃ u, runFor k t = .next u ∧
        readHalf u.mem (fieldAddr Config.params s.blk) = 0#16 ∧ u.blk.savedValid = true ∧
        u.blk.saved = readHalf s.mem (fieldAddr Config.params s.blk) ∧
        ∀ a, a ≠ fieldAddr Config.params s.blk → a ≠ fieldAddr Config.params s.blk + 1 →
          readByte u.mem a = readByte s.mem a

/-- No state carries a result from one command to the next (10_state R24): two runs of a command, with no other agent
moving (log 3), from states that agree on `PAGE_BASE`, `BLKIDX` and memory, and on nothing else, end with the same
`DIGEST` and memory, and a `CKSUM` with the same `RESULT`. -/
def Obligations.NoResultCarriedOver : Prop :=
  ∀ (i : Instr) (s s' : State),
    Ready s → WordsAdmitted s → FieldAdmitted Config.params s → s.turns = [] →
    Ready s' → WordsAdmitted s' → FieldAdmitted Config.params s' → s'.turns = [] →
    s'.blk.pageBase = s.blk.pageBase → s'.blk.blkidx = s.blk.blkidx → s'.mem = s.mem → memWf s.mem = true →
    ∃ t u t' u', exec i s = .next t ∧ runFor (commandSteps i) t = .next u ∧
      exec i s' = .next t' ∧ runFor (commandSteps i) t' = .next u' ∧
      u'.blk.digest = u.blk.digest ∧ u'.mem = u.mem ∧ (i = .cksum → u'.blk.result = u.blk.result)

/-- Whatever the other agents do while a command is in flight, short of resetting the block, the block computes the
mixer and the adapter on the words as it reads them (40_lane_mixer R59, last sentence; 42_host_access R76): `Tracks`
for the word sequence `W` is kept by every step, provided that when the block itself absorbs in it, the word absorbed
is the next word of `W`. Of the other agents' steps nothing is asked: `W` holds the words of memory as they are at the
reads, so the lemma chains over a race. In `IDLE`, `Tracks` says that the outputs are those of `W`. -/
def Obligations.OutputsTrackWordsRead : Prop :=
  ∀ (W : Nat → Word) (s t : State), Tracks Config.base W s.blk → s.blk.phase.busy = true →
    s.turns.head? ≠ some (.reset 0) →
    (s.blk.phase = .absorb → OwnTurn s → memAdmits s.platform (wordAddr s.blk) 4 = true →
      W s.blk.idx.toNat = readWord s.mem (wordAddr s.blk)) →
    step s = .next t → Tracks Config.base W t.blk

/-! ### Host access (42_host_access, 10_state) -/

/-- 42_host_access R74: while idle, a write to `PAGE_BASE` or `BLKIDX` stores the value, unchecked, and changes
nothing else. -/
def Obligations.OperandWritesWhileIdle : Prop :=
  ∀ (v : Word) (s : State), s.blk.phase = .idle →
    regWrite 0x08 .word v s = .next (s.setBlk { s.blk with pageBase := v }) ∧
      regWrite 0x0C .word v s = .next (s.setBlk { s.blk with blkidx := v })

/-- Writes to read-only and reserved offsets are dropped in any phase, and an access at 0x20 or above does not reach the
block (42_host_access R78). That offsets from 0x20 come before the width and alignment check of R79 is the model's
reading (log 15); that a read there completes with a free value is its choice, and the value is not stated (log 13).
-/
def Obligations.ReadOnlyWritesDropped : Prop :=
  ∀ (off : Nat) (v : Word) (s : State),
    (off = 0x04 ∨ off = 0x10 ∨ off = 0x14 ∨ off = 0x18 ∨ off = 0x1C → regWrite off .word v s = .next s) ∧
      (0x20 ≤ off → ∀ size, regWrite off size v s = .next s ∧
        ∃ t, regRead off size s = .next t ∧ t.blk = s.blk ∧ t.mem = s.mem)

/-- 42_host_access R73: the value each register read returns; no state but the script's result list changes, in any
phase. -/
def Obligations.RegisterReads : Prop :=
  ∀ s : State,
    regRead 0x00 .word s = .next (s.pushResult 0x00000000#32) ∧
    regRead 0x04 .word s = .next (s.pushResult (status s.blk)) ∧
    regRead 0x08 .word s = .next (s.pushResult s.blk.pageBase) ∧
    regRead 0x0C .word s = .next (s.pushResult s.blk.blkidx) ∧
    regRead 0x10 .word s = .next (s.pushResult s.blk.digest) ∧
    regRead 0x14 .word s = .next (s.pushResult (BitVec.ofNat 32 s.blk.result.toNat)) ∧
    regRead 0x18 .word s = .next (s.pushResult
      (BitVec.ofNat 32 (s.blk.saved.toNat + 2 ^ 16 * s.blk.savedValid.toNat))) ∧
    regRead 0x1C .word s = .next (s.pushResult 0x00000000#32)

/-- 10_state R21: every field of `STATUS`, the reserved bits, and that `BUSY` is never 1 together with `FAULT`, nor,
in the states a run reaches, with `DONE`. The codes of `PHASE` and `CAUSE` are those of the tables of 30_encoding R47
and 60_exceptions R83. -/
def Obligations.StatusFields : Prop :=
  ∀ (pl : Platform) (b : Block),
    (status b).getLsbD 0 = (b.phase != .idle && b.phase != .faulted) ∧
    (status b).getLsbD 1 = b.done ∧
    (status b).getLsbD 2 = (b.phase == .faulted) ∧
    (status b).getLsbD 3 = b.wrerr ∧
    (status b).extractLsb' 4 4 = b.cause.code ∧
    (∀ x ∈ [(Cause.none, 0#4), (Cause.illegalCmd, 1#4), (Cause.badBase, 2#4), (Cause.busError, 3#4)],
      b.cause = x.1 → (status b).extractLsb' 4 4 = x.2) ∧
    (status b).extractLsb' 8 4 = b.phase.code ∧
    (∀ x ∈ [(Phase.idle, 0#4), (Phase.save, 1#4), (Phase.zero, 2#4), (Phase.init, 3#4), (Phase.absorb, 4#4),
        (Phase.final, 5#4), (Phase.fold, 6#4), (Phase.restore, 7#4), (Phase.salt, 8#4), (Phase.reduce, 9#4),
        (Phase.abort, 10#4), (Phase.faulted, 15#4)],
      b.phase = x.1 → (status b).extractLsb' 8 4 = x.2) ∧
    (status b).getLsbD 12 = (b.op == .cksum) ∧
    (status b).extractLsb' 13 19 = 0#19 ∧
    ((status b).getLsbD 0 && (status b).getLsbD 2) = false ∧
    (BlockInv pl b → ((status b).getLsbD 0 && (status b).getLsbD 1) = false)

/-- 42_host_access R79: a register access inside the window that is not 32 bits wide, or not aligned, is refused (log
15: offsets of 0x20 and above are outside the window first). -/
def Obligations.BadShapeRefused : Prop :=
  ∀ (off : Nat) (size : AccessSize) (v : Word) (s : State), off < 0x20 → size ≠ .word ∨ off % 4 ≠ 0 →
    regRead off size s = .refused .registerAccessShape ∧ regWrite off size v s = .refused .registerAccessShape

/-- `wait` (30_encoding R48, 42_host_access R81): with `BUSY = 0` it returns `STATUS`; while `BUSY = 1` the block's
next micro-operation runs and `wait` stays the next move. Two points are the model's choice: that only the last
`STATUS` goes into the result list (log 20), and that one micro-operation runs per poll (log 21). -/
def Obligations.WaitPolls : Prop :=
  ∀ (s : State) (rest : List Move), s.turns = .wait 0 :: rest →
    (s.blk.phase.busy = false → step s = .next (({ s with turns := rest } : State).pushResult (status s.blk))) ∧
      (s.blk.phase.busy = true → ∀ t, microOp Config.params { s with turns := rest } = .next t →
        step s = .next { t with turns := .wait 0 :: rest })

/-- A host memory write is what the next read of the same bytes returns (20_memory R34, 42_host_access R80),
zero-extended; every other byte, and all other state, is as it was. Model's choices: that a host access always completes
(log 7), that it is one access whatever its alignment (log 19), and that the value read goes into the result list (log
20). -/
def Obligations.HostMemoryReadBack : Prop :=
  ∀ (s : State) (rest : List Move) (size : AccessSize) (a : Nat) (v : Word),
    s.turns = .memWrite size a v :: .memRead size a :: rest → a + size.bytes ≤ Config.memBytes →
    memTarget s.platform a size.bytes = .memory →
    ∃ t, runFor 2 s = .next t ∧
      t.results = s.results ++ [BitVec.ofNat 32 (v.toNat % 2 ^ (8 * size.bytes))] ∧
      t.blk = s.blk ∧ t.others = s.others ∧ t.platform = s.platform ∧ t.turns = rest ∧
      t.freeCtr = s.freeCtr ∧
      ∀ b, b < a ∨ a + size.bytes ≤ b → readByte t.mem b = readByte s.mem b

/-! ### Turns -/

/-- A step runs the decoded command: when the next move is a write to `CMD` whose word decodes to `i`, the step is
`exec i` on the state with that move taken; placing a word with `withFetchWord` makes it that next move (log 2). -/
def Obligations.StepRunsDecoded : Prop :=
  (∀ (s : State) (rest : List Move) (w : Word) (i : Instr),
    s.turns = .regWrite 0 0x00 .word w :: rest → decode w = .command i →
    step s = exec i { s with turns := rest }) ∧
  (∀ (s : State) (w : Nat) (i : Instr), decodeTableWord 32 w = some i → step (s.withFetchWord 32 w) = exec i s)

/-- With no move left, the first busy block takes its next micro-operation, block 0 before the others in their order;
the other instances are as they were, and nothing changes if no block is busy (10_state R20, 60_exceptions R96,
70_reset_and_hazards R108, R109). The interleaving, and instances as a list, are the model's choice (logs 3, 16). -/
def Obligations.BlockRunsWhenNoMoveIsLeft : Prop :=
  ∀ s : State, s.turns = [] →
    (s.blk.phase.busy = true → step s = microOp Config.params s) ∧
      (s.blk.phase.busy = false → ∀ (j : Nat) (b : Block), s.others[j]? = some b → b.phase.busy = true →
        (∀ i < j, ∀ c, s.others[i]? = some c → c.phase.busy = false) →
        ∀ u, microOp Config.params (s.setBlk b) = .next u →
          step s = .next { u with blk := s.blk, others := s.others.set j u.blk }) ∧
      (s.blk.phase.busy = false → (∀ b ∈ s.others, b.phase.busy = false) → step s = .next s)

/-! ### Micro-operations (40_lane_mixer, 41_checksum_adapter, 60_exceptions) -/

/-- 40_lane_mixer R53: `INIT`. -/
def Obligations.InitStep : Prop :=
  ∀ (p : Config.Params) (s : State), s.blk.phase = .init →
    microOp p s = .next (s.setBlk { s.blk with acc := p.base, phase := .absorb, idx := 0#11 })

/-- 40_lane_mixer R54: `ABSORB`, on a word that exists, admitted or not. -/
def Obligations.AbsorbStep : Prop :=
  ∀ (p : Config.Params) (s : State), s.blk.phase = .absorb →
    s.blk.pageBase.toNat + 4 * s.blk.idx.toNat + 4 ≤ 4294967296 →
    (memAdmits s.platform (s.blk.pageBase.toNat + 4 * s.blk.idx.toNat) 4 = true →
      ∀ x, x = readWord s.mem (s.blk.pageBase.toNat + 4 * s.blk.idx.toNat) →
      ∀ c : Fin 32, c.val = s.blk.idx.toNat % 32 →
      ∀ acc, acc = setLane s.blk.acc c (mixstep (getLane s.blk.acc c) x) →
        microOp p s = .next (s.setBlk (if s.blk.idx = 2047#11
          then { s.blk with acc := acc, phase := .final, idx := 0#11 }
          else { s.blk with acc := acc, idx := s.blk.idx + 1#11 }))) ∧
    (memAdmits s.platform (s.blk.pageBase.toNat + 4 * s.blk.idx.toNat) 4 = false →
      microOp p s = .next (s.setBlk { s.blk with
        cause := if s.blk.cause = .none then .busError else s.blk.cause, phase := .abort }))

/-- 40_lane_mixer R55: `FINAL`. -/
def Obligations.FinalStep : Prop :=
  ∀ (p : Config.Params) (s : State), s.blk.phase = .final →
    ∀ c : Fin 32, c.val = s.blk.idx.toNat % 32 →
    ∀ acc, acc = setLane s.blk.acc c (mixstep (getLane s.blk.acc c) 0#32) →
      microOp p s = .next (s.setBlk (if s.blk.idx = 63#11
        then { s.blk with acc := acc, phase := .fold, idx := 0#11 }
        else { s.blk with acc := acc, idx := s.blk.idx + 1#11 }))

/-- 40_lane_mixer R56: `FOLD`, for every lane number; at lane 31 a `MIX` is done and a `CKSUM` goes on to `RESTORE`.
-/
def Obligations.FoldStep : Prop :=
  ∀ (p : Config.Params) (s : State), s.blk.phase = .fold → s.blk.idx.toNat < 32 →
    ∀ j : Fin 32, j.val = s.blk.idx.toNat →
    ∀ d, d = (if s.blk.idx = 0#11 then getLane s.blk.acc 0 else s.blk.digest ^^^ getLane s.blk.acc j) →
      (s.blk.idx ≠ 31#11 → microOp p s = .next (s.setBlk { s.blk with digest := d, idx := s.blk.idx + 1#11 })) ∧
      (s.blk.idx = 31#11 → s.blk.op = .mix →
        microOp p s = .next (s.setBlk { s.blk with digest := d, idx := 0#11, done := true, phase := .idle })) ∧
      (s.blk.idx = 31#11 → s.blk.op = .cksum →
        microOp p s = .next (s.setBlk { s.blk with digest := d, idx := 0#11, phase := .restore }))

/-- `SAVE`, on a field that exists: admitted (41_checksum_adapter R63), or refused, which keeps the first cause and goes
to `ABORT` (60_exceptions R86, R88). `SAVED_VALID` is as it was, in both cases. -/
def Obligations.SaveStep : Prop :=
  ∀ (p : Config.Params) (s : State), s.blk.phase = .save →
    s.blk.pageBase.toNat + p.cksumOff + 2 ≤ 4294967296 →
    (memAdmits s.platform (s.blk.pageBase.toNat + p.cksumOff) 2 = true →
      microOp p s = .next (s.setBlk { s.blk with
        saved := readHalf s.mem (s.blk.pageBase.toNat + p.cksumOff), phase := .zero })) ∧
    (memAdmits s.platform (s.blk.pageBase.toNat + p.cksumOff) 2 = false →
      microOp p s = .next (s.setBlk { s.blk with
        cause := if s.blk.cause = .none then .busError else s.blk.cause, phase := .abort }))

/-- 41_checksum_adapter R64: `ZERO`, on a field that exists, admitted or not; the write changes the two bytes of the
field and no other. -/
def Obligations.ZeroStep : Prop :=
  ∀ (p : Config.Params) (s : State), s.blk.phase = .zero →
    s.blk.pageBase.toNat + p.cksumOff + 2 ≤ 4294967296 →
    (memAdmits s.platform (s.blk.pageBase.toNat + p.cksumOff) 2 = true →
      ∃ m, microOp p s = .next ((s.setBlk { s.blk with savedValid := true, phase := .init }).setMem m) ∧
        readHalf m (s.blk.pageBase.toNat + p.cksumOff) = 0#16 ∧
        ∀ a, a ≠ s.blk.pageBase.toNat + p.cksumOff → a ≠ s.blk.pageBase.toNat + p.cksumOff + 1 →
          readByte m a = readByte s.mem a) ∧
    (memAdmits s.platform (s.blk.pageBase.toNat + p.cksumOff) 2 = false →
      microOp p s = .next (s.setBlk { s.blk with
        cause := if s.blk.cause = .none then .busError else s.blk.cause, phase := .abort }))

/-- 41_checksum_adapter R65: `RESTORE`, on a field that exists, admitted or not; a refused write leaves `SAVED_VALID`
as it was and goes to `FAULTED` directly. -/
def Obligations.RestoreStep : Prop :=
  ∀ (p : Config.Params) (s : State), s.blk.phase = .restore →
    s.blk.pageBase.toNat + p.cksumOff + 2 ≤ 4294967296 →
    (memAdmits s.platform (s.blk.pageBase.toNat + p.cksumOff) 2 = true →
      ∃ m, microOp p s = .next ((s.setBlk { s.blk with savedValid := false, phase := .salt }).setMem m) ∧
        readHalf m (s.blk.pageBase.toNat + p.cksumOff) = s.blk.saved ∧
        ∀ a, a ≠ s.blk.pageBase.toNat + p.cksumOff → a ≠ s.blk.pageBase.toNat + p.cksumOff + 1 →
          readByte m a = readByte s.mem a) ∧
    (memAdmits s.platform (s.blk.pageBase.toNat + p.cksumOff) 2 = false →
      microOp p s = .next (s.setBlk { s.blk with
        cause := if s.blk.cause = .none then .busError else s.blk.cause, phase := .faulted }))

/-- 41_checksum_adapter R66: `SALT`. -/
def Obligations.SaltStep : Prop :=
  ∀ (p : Config.Params) (s : State), s.blk.phase = .salt →
    microOp p s = .next (s.setBlk { s.blk with comb := s.blk.digest ^^^ s.blk.blkidx, phase := .reduce })

/-- 41_checksum_adapter R67: `REDUCE`; the result is `(COMB mod 65535) + 1` and is not 0. -/
def Obligations.ReduceStep : Prop :=
  ∀ (p : Config.Params) (s : State), s.blk.phase = .reduce →
    ∃ r : Half, r.toNat = s.blk.comb.toNat % 65535 + 1 ∧ r ≠ 0#16 ∧
      microOp p s = .next (s.setBlk { s.blk with result := r, done := true, phase := .idle })

/-- 60_exceptions R89: `ABORT` writes the field back if it is zeroed and the write is admitted, and is faulted in
every case; a refused write leaves memory and `SAVED_VALID` as they were. -/
def Obligations.AbortStep : Prop :=
  ∀ (p : Config.Params) (s : State), s.blk.phase = .abort →
    s.blk.pageBase.toNat + p.cksumOff + 2 ≤ 4294967296 →
    (s.blk.savedValid = true → memAdmits s.platform (s.blk.pageBase.toNat + p.cksumOff) 2 = true →
      ∃ m, microOp p s = .next ((s.setBlk { s.blk with savedValid := false, phase := .faulted }).setMem m) ∧
        readHalf m (s.blk.pageBase.toNat + p.cksumOff) = s.blk.saved ∧
        ∀ a, a ≠ s.blk.pageBase.toNat + p.cksumOff → a ≠ s.blk.pageBase.toNat + p.cksumOff + 1 →
          readByte m a = readByte s.mem a) ∧
    (s.blk.savedValid = true → memAdmits s.platform (s.blk.pageBase.toNat + p.cksumOff) 2 = false →
      microOp p s = .next (s.setBlk { s.blk with phase := .faulted })) ∧
    (s.blk.savedValid = false → microOp p s = .next (s.setBlk { s.blk with phase := .faulted }))

/-- A refused `ABSORB` read in the zero window, with the field write admitted: the failing `ABSORB` and the `ABORT` after
it put the field back and change no other byte, and the block ends faulted with `CAUSE` 3 and `SAVED_VALID` 0
(60_exceptions R86, R89). A refused `RESTORE` does not put the field back (41_checksum_adapter R65, `RestoreStep`). -/
def Obligations.BusErrorRestoresField : Prop :=
  ∀ (p : Config.Params) (s : State), s.blk.phase = .absorb → s.blk.cause = .none → s.blk.savedValid = true →
    wordAddr s.blk + 4 ≤ Config.memBytes → fieldAddr p s.blk + 2 ≤ Config.memBytes →
    memAdmits s.platform (wordAddr s.blk) 4 = false → memAdmits s.platform (fieldAddr p s.blk) 2 = true →
    ∃ t u, microOp p s = .next t ∧ t.mem = s.mem ∧ microOp p t = .next u ∧
      u.blk = { s.blk with cause := .busError, phase := .faulted, savedValid := false } ∧
      readHalf u.mem (fieldAddr p s.blk) = s.blk.saved ∧
      ∀ a, a ≠ fieldAddr p s.blk → a ≠ fieldAddr p s.blk + 1 → readByte u.mem a = readByte s.mem a

/-- No micro-operation changes a byte outside the Checksum Field, and none changes anything but the block and memory
(20_memory R32). -/
def Obligations.OnlyFieldWritten : Prop :=
  ∀ (p : Config.Params) (s t : State), microOp p s = .next t →
    t = (s.setBlk t.blk).setMem t.mem ∧ t.blk.pageBase = s.blk.pageBase ∧ t.blk.blkidx = s.blk.blkidx ∧
      t.blk.op = s.blk.op ∧ t.blk.wrerr = s.blk.wrerr ∧
      ∀ a, a ≠ fieldAddr p s.blk → a ≠ fieldAddr p s.blk + 1 → readByte t.mem a = readByte s.mem a

/-- `MIX` writes no memory and none of `RESULT`, `SAVED`, `SAVED_VALID`, `COMB` (40_lane_mixer R52), whatever the
other state of the block that a run reaches. -/
def Obligations.MixWritesNoMemory : Prop :=
  ∀ (p : Config.Params) (s t : State), BlockInv s.platform s.blk → s.blk.op = .mix → microOp p s = .next t →
    t.mem = s.mem ∧ t.blk.result = s.blk.result ∧ t.blk.saved = s.blk.saved ∧
      t.blk.savedValid = s.blk.savedValid ∧ t.blk.comb = s.blk.comb

/-- The block reads and writes no byte outside its page (20_memory R27): with any other memory that holds the same
page, a micro-operation does the same to the block and to the page, and leaves the rest of that memory alone. -/
def Obligations.OnlyPageRead : Prop :=
  ∀ (p : Config.Params) (s t : State) (m : Memory), p.cksumOff ≤ 8190 →
    (∀ o < 8192, readByte m (s.blk.pageBase.toNat + o) = readByte s.mem (s.blk.pageBase.toNat + o)) →
    microOp p s = .next t →
    ∃ t', microOp p (s.setMem m) = .next t' ∧ t'.blk = t.blk ∧
      (∀ o < 8192, readByte t'.mem (s.blk.pageBase.toNat + o) = readByte t.mem (s.blk.pageBase.toNat + o)) ∧
      ∀ a, a < s.blk.pageBase.toNat ∨ s.blk.pageBase.toNat + 8192 ≤ a → readByte t'.mem a = readByte m a

/-! ### The functions -/

/-- 40_lane_mixer R50: the mixing step, over the numbers: product modulo 2^32, and the logical shift as a quotient. -/
def Obligations.MixstepFormula : Prop :=
  (∀ acc x tmp : Word, tmp = acc ^^^ x →
    mixstep acc x = BitVec.ofNat 32 (tmp.toNat * 16777619 % 2 ^ 32) ^^^ BitVec.ofNat 32 (tmp.toNat / 2 ^ 17)) ∧
    mixstep 0x00000000#32 0x80000000#32 = 0x80004000#32

/-- The laws of the mixing step (40_lane_mixer R58). With the shifted term taken out, `mixstep` is the product modulo 2^32
of the XOR of its inputs, and its shift-and-add form; with the product taken out, it is the quotient by 131072, at most
32767 (no copy of bit 31). Equal inputs give 0, and the inputs count through their XOR only. -/
def Obligations.MixstepLaws : Prop :=
  (∀ a x tmp : Word, tmp = a ^^^ x →
    (mixstep a x ^^^ BitVec.ofNat 32 (tmp.toNat / 131072)).toNat = tmp.toNat * 16777619 % 2 ^ 32 ∧
    mixstep a x ^^^ BitVec.ofNat 32 (tmp.toNat / 131072) = (tmp <<< 24) + (tmp <<< 8) + tmp * 0x93#32 ∧
    (mixstep a x ^^^ BitVec.ofNat 32 (tmp.toNat * 16777619 % 2 ^ 32)).toNat = tmp.toNat / 131072 ∧
    (mixstep a x ^^^ BitVec.ofNat 32 (tmp.toNat * 16777619 % 2 ^ 32)).toNat ≤ 32767) ∧
    (∀ a : Word, mixstep a a = 0#32 ∧ mixstep a 0#32 = mixstep 0#32 a) ∧
    ∀ a x b y : Word, a ^^^ x = b ^^^ y → mixstep a x = mixstep b y

/-- 40_lane_mixer R51: the per-lane form of the Lane Mixer. Each final lane is `lane(c)`, and the digest is their XOR
in lane order. -/
def Obligations.MixIsXorOfLanes : Prop :=
  ∀ (base : Config.Lanes) (W : Nat → Word),
    (∀ c, getLane (finalLanes base W) c = laneFinal base W c) ∧
      mix base W = (List.finRange 32).foldl (fun d c => d ^^^ laneFinal base W c) 0#32

/-- Lanes are independent (10_state R12, 40_lane_mixer R57): a final lane depends on its own constant and on the words
of its own column only. -/
def Obligations.LanesIndependent : Prop :=
  ∀ (base base' : Config.Lanes) (W W' : Nat → Word) (c : Fin 32), getLane base c = getLane base' c →
    (∀ r < 64, W (32 * r + c.val) = W' (32 * r + c.val)) →
    getLane (finalLanes base W) c = getLane (finalLanes base' W') c

/-- 41_checksum_adapter R60: the reduction, its equivalent form, and its corner values. -/
def Obligations.ReductionFormula : Prop :=
  (∀ v : Word, (reduce16 v).toNat = v.toNat % 65535 + 1 ∧
    v.toNat % 65535 = ((v.extractLsb' 16 16).toNat + (v.extractLsb' 0 16).toNat) % 65535) ∧
    reduce16 0#32 = 1#16 ∧ reduce16 65534#32 = 65535#16 ∧ reduce16 65535#32 = 1#16 ∧
    reduce16 65536#32 = 2#16 ∧ reduce16 0xFFFFFFFF#32 = 1#16 ∧ reduce16 0xFFFFFFFE#32 = 65535#16

/-- 41_checksum_adapter R70: the result is never 0, as a function and in every state a run reaches after a completed
`CKSUM`. -/
def Obligations.ResultNeverZero : Prop :=
  (∀ (p : Config.Params) (page : Nat → Byte) (blk : Word),
    1 ≤ (checksum p page blk).toNat ∧ (checksum p page blk).toNat ≤ 65535) ∧
    ∀ (pl : Platform) (b : Block), BlockInv pl b → b.done = true → b.op = .cksum →
      1 ≤ b.result.toNat ∧ b.result.toNat ≤ 65535

/-- 41_checksum_adapter R71: pages that differ at most in the Checksum Field have the same checksum; so a host can
store `RESULT` into the field and compute it again. -/
def Obligations.FieldIndependence : Prop :=
  ∀ (p : Config.Params) (page page' : Nat → Byte) (blk : Word),
    (∀ o < 8192, o ≠ p.cksumOff → o ≠ p.cksumOff + 1 → page o = page' o) → checksum p page blk = checksum p page' blk

/-! ### The page in memory -/

/-- 20_memory R29: the byte order of words and of the field. -/
def Obligations.LittleEndian : Prop :=
  ∀ (m : Memory) (a : Nat),
    (readWord m a).toNat = (readByte m a).toNat + 2 ^ 8 * (readByte m (a + 1)).toNat +
      2 ^ 16 * (readByte m (a + 2)).toNat + 2 ^ 24 * (readByte m (a + 3)).toNat ∧
    (readHalf m a).toNat = (readByte m a).toNat + 2 ^ 8 * (readByte m (a + 1)).toNat

/-- The word grid (20_memory R28): element `(r, c)` is word `32*r + c` at offset `128*r + 4*c`, and its lane is `c`;
the page words are the words in memory; every byte of the page lies in exactly one word. -/
def Obligations.WordGrid : Prop :=
  (∀ r c : Nat, c < 32 → (laneOf (32 * r + c)).val = c ∧ (32 * r + c) / 32 = r ∧
    4 * (32 * r + c) = 128 * r + 4 * c) ∧
    (∀ (s : State) (w : Nat), pageWords s w = readWord s.mem (s.blk.pageBase.toNat + 4 * w)) ∧
    ∀ o < 8192, o / 4 < 2048 ∧ ∀ w, (4 * w ≤ o ∧ o < 4 * w + 4) ↔ w = o / 4

/-- 20_memory R30: the field lies wholly inside word `CKSUM_OFF div 4`; zeroing it zeroes bits 15:0 or bits 31:16 of
that word and changes no other bit of the page. -/
def Obligations.FieldInOneWord : Prop :=
  ∀ (page : Nat → Byte) (off : Nat), off % 2 = 0 →
    (∀ w, w ≠ off / 4 → wordsOf (zeroField off page) w = wordsOf page w) ∧
    (off % 4 = 0 →
      (wordsOf (zeroField off page) (off / 4)).extractLsb' 0 16 = 0#16 ∧
      (wordsOf (zeroField off page) (off / 4)).extractLsb' 16 16 = (wordsOf page (off / 4)).extractLsb' 16 16) ∧
    (off % 4 = 2 →
      (wordsOf (zeroField off page) (off / 4)).extractLsb' 16 16 = 0#16 ∧
      (wordsOf (zeroField off page) (off / 4)).extractLsb' 0 16 = (wordsOf page (off / 4)).extractLsb' 0 16)

/-- The configuration checks (00_scope R6, 20_memory R30): a record passes only with a whole number of rows, one that
fails is refused, as is an odd or too large field offset; the block's own geometry passes and, with an even offset up to
8190, builds the parameters asked for; a page of 8200 bytes (S11) does not pass. -/
def Obligations.GeometryChecked : Prop :=
  (∀ g : Config.Geometry, WellFormed.geometryOk g = true →
    g.pageSize % (g.wordBytes * g.nLanes) = 0 ∧ g.nRows = g.pageSize / (g.wordBytes * g.nLanes)) ∧
    (∀ g base off, WellFormed.geometryOk g = false → WellFormed.build g base off = none) ∧
    (∀ g base off, off % 2 = 1 ∨ 8190 < off → WellFormed.build g base off = none) ∧
    (∀ base off, off % 2 = 0 → off ≤ 8190 →
      WellFormed.build Config.geometry base off = some { base := base, cksumOff := off }) ∧
    WellFormed.geometryOk Config.geometry = true ∧
    WellFormed.geometryOk { Config.geometry with pageSize := 8200 } = false ∧
    WellFormed.paramsOk Config.params = true

/-! ### Whole-machine rules -/

/-- Every step of the system keeps the invariant: memory canonical, and every block instance in a state `BlockInv`
describes (10_state R18, R20, R21, R22, 20_memory R31). -/
def Obligations.StepKeepsInvariant : Prop :=
  ∀ s t : State, SysInv s → step s = .next t → SysInv t

/-- The state after reset meets the invariant. -/
def Obligations.ResetMeetsInvariant : Prop := SysInv State.reset

/-- The only writers (10_state R12, R14 to R20, R22): whatever any agent does, short of resetting the block, each
register of the block changes only in the step of the micro-operation that writes it, and the operands, `OP` and the
clearing of `DONE` only while the block is idle. -/
def Obligations.OnlyWriters : Prop :=
  ∀ s t : State, s.turns.head? ≠ some (.reset 0) → step s = .next t →
    (t.blk.acc ≠ s.blk.acc → s.blk.phase = .init ∨ s.blk.phase = .absorb ∨ s.blk.phase = .final) ∧
    (t.blk.pageBase ≠ s.blk.pageBase ∨ t.blk.blkidx ≠ s.blk.blkidx ∨ t.blk.op ≠ s.blk.op → s.blk.phase = .idle) ∧
    (t.blk.digest ≠ s.blk.digest → s.blk.phase = .fold) ∧
    (t.blk.result ≠ s.blk.result → s.blk.phase = .reduce) ∧
    (t.blk.saved ≠ s.blk.saved → s.blk.phase = .save) ∧
    (t.blk.savedValid ≠ s.blk.savedValid →
      s.blk.phase = .zero ∨ s.blk.phase = .restore ∨ s.blk.phase = .abort) ∧
    (t.blk.comb ≠ s.blk.comb → s.blk.phase = .salt) ∧
    (s.blk.done = true → t.blk.done = false → s.blk.phase = .idle) ∧
    (s.blk.done = false → t.blk.done = true →
      s.blk.phase = .fold ∧ s.blk.op = .mix ∧ s.blk.idx = 31#11 ∨ s.blk.phase = .reduce)

/-- A faulted block is frozen: no move but its own reset changes any of its state (60_exceptions R82, R90,
42_host_access R77). -/
def Obligations.FaultedUntilReset : Prop :=
  ∀ s t : State, s.blk.phase = .faulted → s.turns.head? ≠ some (.reset 0) → step s = .next t → t.blk = s.blk

/-- No cancellation (60_exceptions R98, 42_host_access R76): a step of the system that is not the block's reset leaves
a busy block as it was, or sets `WRERR` alone, or is the block's own next micro-operation. -/
def Obligations.BusyBlockUndisturbed : Prop :=
  ∀ s t : State, s.blk.phase.busy = true → s.turns.head? ≠ some (.reset 0) → step s = .next t →
    t.blk = s.blk ∨ t.blk = { s.blk with wrerr := true } ∨
      ∃ u, microOp Config.params { s with turns := s.turns.tail } = .next u ∧ t.blk = u.blk

/-- Only reset clears `WRERR` or `CAUSE` or leaves `FAULTED`, and `CAUSE` keeps the first fault (10_state R22,
60_exceptions R90, 70_reset_and_hazards R99). -/
def Obligations.OnlyResetClears : Prop :=
  ∀ s t : State, s.turns.head? ≠ some (.reset 0) → step s = .next t →
    (s.blk.wrerr = true → t.blk.wrerr = true) ∧ (s.blk.cause ≠ .none → t.blk.cause = s.blk.cause) ∧
      (s.blk.phase = .faulted → t.blk.phase = .faulted)

/-- Block instances share memory only (60_exceptions R96): a micro-operation of another instance changes no state of
block 0 and of no third instance, and no byte of block 0's page when the two pages do not overlap (instances as a
list: log 16). -/
def Obligations.OtherBlocksIsolated : Prop :=
  ∀ (s t : State) (j : Nat) (b : Block) (rest : List Move), s.turns = .block (j + 1) :: rest →
    s.others[j]? = some b → step s = .next t →
    t.blk = s.blk ∧ (∀ i, i ≠ j → t.others[i]? = s.others[i]?) ∧
      (b.pageBase.toNat + 8192 ≤ s.blk.pageBase.toNat ∨ s.blk.pageBase.toNat + 8192 ≤ b.pageBase.toNat →
        ∀ o < 8192, pageBytes t o = pageBytes s o)

/-! ### Reset (10_state R25, 70_reset_and_hazards R99, R100) -/

/-- What reset leaves, in any phase: the values of the table of 10_state R25 with `STATUS` 0 (70_reset_and_hazards R99),
and memory untouched (R100). `ACC` and `COMB` are not named: they hold no value to rely on (log 10). That the platform,
the other blocks, the results and the remaining moves are untouched is said of the model's own fields (logs 2, 6, 16,
20). -/
def Obligations.ResetMove : Prop :=
  ∀ (s : State) (rest : List Move), s.turns = .reset 0 :: rest →
    ∃ t, step s = .next t ∧
      t.blk.phase = .idle ∧ t.blk.idx = 0#11 ∧ t.blk.op = .mix ∧ t.blk.done = false ∧ t.blk.wrerr = false ∧
      t.blk.cause = .none ∧ t.blk.pageBase = 0#32 ∧ t.blk.blkidx = 0#32 ∧ t.blk.digest = 0#32 ∧
      t.blk.result = 0#16 ∧ t.blk.saved = 0#16 ∧ t.blk.savedValid = false ∧ status t.blk = 0#32 ∧
      t.mem = s.mem ∧ t.platform = s.platform ∧ t.others = s.others ∧ t.results = s.results ∧ t.turns = rest

/-- The machine right after reset (10_state R25): the same values, and every register of the window reads 0 (V51).
That nothing is listed in memory, and that no move is placed, is the model's choice (logs 11, 12). -/
def Obligations.ResetState : Prop :=
  State.reset.blk.phase = .idle ∧ State.reset.blk.idx = 0#11 ∧ State.reset.blk.op = .mix ∧
    State.reset.blk.savedValid = false ∧ State.reset.mem = [] ∧ State.reset.turns = [] ∧
    ∀ r : Reg, regValue State.reset.blk r = 0#32
end

