-- ==== Sys2Proof/Laws/Lanes.lean ====
section
/-!
SUPPORT. The laws of the lane file (10_state R12): a lane holds what was last put there, and no step on one lane changes
another.
-/

namespace Sys2Proof.Machine

/-- The mixing step with its constants written out (40_lane_mixer R50). -/
theorem mixstep_eq (acc x : Word) :
    mixstep acc x = ((acc ^^^ x) * 16777619#32) ^^^ ((acc ^^^ x) >>> 17) := rfl

@[simp] theorem getLane_setLane_same (a : Config.Lanes) (i : Fin 32) (v : Word) :
    getLane (setLane a i v) i = v := by
  simp [getLane, setLane]

theorem getLane_setLane_other (a : Config.Lanes) {i j : Fin 32} (v : Word) (h : j ≠ i) :
    getLane (setLane a i v) j = getLane a j := by
  have hv : i.val ≠ j.val := fun e => h (Fin.ext e.symm)
  simp [getLane, setLane, hv]

/-- A mixing step on the lane of index `n` changes that lane and no other. -/
theorem getLane_mixLane (a : Config.Lanes) (n : Nat) (x : Word) (j : Fin 32) :
    getLane (mixLane a n x) j = if j = laneOf n then mixstep (getLane a j) x else getLane a j := by
  unfold mixLane
  split
  · rename_i h
    rw [h, getLane_setLane_same]
  · rename_i h
    exact getLane_setLane_other a _ h

/-- Lane files that agree lane by lane are equal. -/
theorem lanes_ext {a b : Config.Lanes} (h : ∀ j, getLane a j = getLane b j) : a = b := by
  apply Vector.ext
  intro i hi
  exact h ⟨i, hi⟩

/-- The lanes after `n` words depend only on those words. -/
theorem lanesAfterWords_congr (base : Config.Lanes) {W W' : Nat → Word} {n : Nat} (h : ∀ w < n, W w = W' w) :
    lanesAfterWords base W n = lanesAfterWords base W' n := by
  induction n with
  | zero => rfl
  | succ n ih =>
    simp only [lanesAfterWords, ih fun w hw => h w (by omega), h n (by omega)]

/-- The Lane Mixer depends only on the 2048 words of the page. -/
theorem mix_congr (base : Config.Lanes) {W W' : Nat → Word} (h : ∀ w < Config.nWords, W w = W' w) :
    mix base W = mix base W' := by
  simp only [mix, finalLanes, lanesAfterWords_congr base h]

end Sys2Proof.Machine
end

