-- ==== Sys2Proof/Laws/Memory.lean ====
section
/-!
SUPPORT. The laws of memory (20_memory R27, R34): a read gives the last byte written, a write leaves every other byte
alone, every operation keeps the canonical form, and two canonical memories that read alike are equal.
-/

namespace Sys2Proof.Machine

/-! ### Reads after writes -/

theorem readByte_eraseByte_same (m : Memory) (a : Nat) : readByte (eraseByte m a) a = unlisted := by
  induction m with
  | nil => rfl
  | cons c rest ih =>
    by_cases h : c.1 = a
    · simpa [eraseByte, h] using ih
    · simpa [eraseByte, h, readByte] using ih

theorem readByte_eraseByte_other (m : Memory) {a b : Nat} (h : b ≠ a) :
    readByte (eraseByte m a) b = readByte m b := by
  induction m with
  | nil => rfl
  | cons c rest ih =>
    by_cases hc : c.1 = a
    · have hb : ¬ a = b := fun e => h e.symm
      simpa [eraseByte, hc, readByte, hb] using ih
    · by_cases hb : c.1 = b
      · simp [eraseByte, readByte, hb, h]
      · simpa [eraseByte, hc, readByte, hb] using ih

theorem readByte_insertByte_same (m : Memory) (a : Nat) (v : Byte) : readByte (insertByte m a v) a = v := by
  induction m with
  | nil => simp [insertByte, readByte]
  | cons c rest ih =>
    unfold insertByte
    split
    · simp [readByte]
    · split
      · simp [readByte]
      · rename_i h
        simpa [readByte, h] using ih

theorem readByte_insertByte_other (m : Memory) {a b : Nat} (v : Byte) (h : b ≠ a) :
    readByte (insertByte m a v) b = readByte m b := by
  have hb : ¬ a = b := fun e => h e.symm
  induction m with
  | nil => simp [insertByte, readByte, hb]
  | cons c rest ih =>
    unfold insertByte
    split
    · simp [readByte, hb]
    · split
      · rename_i hc
        simp [readByte, hb, hc]
      · simp [readByte, ih]

/-- A read of the byte just written gives it. -/
@[simp] theorem readByte_writeByte_same (m : Memory) (a : Nat) (v : Byte) : readByte (writeByte m a v) a = v := by
  unfold writeByte
  split
  · rename_i h
    rw [readByte_eraseByte_same, h]
  · exact readByte_insertByte_same m a v

/-- A write leaves every other byte alone. -/
theorem readByte_writeByte_other (m : Memory) {a b : Nat} (v : Byte) (h : b ≠ a) :
    readByte (writeByte m a v) b = readByte m b := by
  unfold writeByte
  split
  · exact readByte_eraseByte_other m h
  · exact readByte_insertByte_other m v h

/-- What a byte reads as after a write. -/
theorem readByte_writeByte (m : Memory) (a b : Nat) (v : Byte) :
    readByte (writeByte m a v) b = if b = a then v else readByte m b := by
  split
  · rename_i h
    rw [h, readByte_writeByte_same]
  · rename_i h
    exact readByte_writeByte_other m v h

/-- A field write changes the two bytes of the field and no other byte (20_memory R32). -/
theorem readByte_writeHalf (m : Memory) (a b : Nat) (v : Half) :
    readByte (writeHalf m a v) b =
      if b = a then v.extractLsb' 0 8 else if b = a + 1 then v.extractLsb' 8 8 else readByte m b := by
  unfold writeHalf
  rw [readByte_writeByte, readByte_writeByte]
  by_cases h : b = a
  · have h1 : ¬ b = a + 1 := by omega
    simp [h]
  · simp [h]

/-- The low byte of a 16-bit value is the byte at the lower address (20_memory R29). -/
@[simp] theorem halfOfBytes_low (b0 b1 : Byte) : (halfOfBytes b0 b1).extractLsb' 0 8 = b0 :=
  BitVec.extractLsb'_append_eq_right

/-- The high byte of a 16-bit value is the byte at the higher address (20_memory R29). -/
@[simp] theorem halfOfBytes_high (b0 b1 : Byte) : (halfOfBytes b0 b1).extractLsb' 8 8 = b1 :=
  BitVec.extractLsb'_append_eq_left

theorem halfOfBytes_extract (v : Half) : halfOfBytes (v.extractLsb' 0 8) (v.extractLsb' 8 8) = v := by
  unfold halfOfBytes
  ext i hi
  simp only [BitVec.getElem_append, BitVec.getElem_extractLsb']
  split
  · simp [BitVec.getLsbD_eq_getElem hi]
  · rename_i h
    have : 8 + (i - 8) = i := by omega
    simp [this, BitVec.getLsbD_eq_getElem hi]

/-- The bytes read back as the value written. -/
@[simp] theorem readHalf_writeHalf_same (m : Memory) (a : Nat) (v : Half) : readHalf (writeHalf m a v) a = v := by
  unfold readHalf
  rw [readByte_writeHalf, readByte_writeHalf]
  simp [halfOfBytes_extract]

theorem readByte_writeHalf_other (m : Memory) {a b : Nat} (v : Half) (h0 : b ≠ a) (h1 : b ≠ a + 1) :
    readByte (writeHalf m a v) b = readByte m b := by
  simp [readByte_writeHalf, h0, h1]

/-! ### The canonical form -/

/-- The canonical form, spelled out. -/
theorem memWf_iff (m : Memory) :
    memWf m = true ↔
      (m.map Prod.fst).Pairwise (· < ·) ∧ ∀ c ∈ m, c.1 < Config.memBytes ∧ c.2 ≠ unlisted := by
  simp [memWf]

theorem memWf_eraseByte {m : Memory} (a : Nat) (h : memWf m = true) : memWf (eraseByte m a) = true := by
  rw [memWf_iff] at h ⊢
  refine ⟨?_, fun c hc => h.2 c (List.mem_of_mem_filter hc)⟩
  exact h.1.sublist (List.Sublist.map _ List.filter_sublist)

theorem mem_insertByte {m : Memory} {a : Nat} {v : Byte} {c : Host.Cell} (h : c ∈ insertByte m a v) :
    c = (a, v) ∨ c ∈ m := by
  induction m with
  | nil => exact .inl (by simpa [insertByte] using h)
  | cons d rest ih =>
    unfold insertByte at h
    split at h
    · simpa using h
    · split at h
      · rcases List.mem_cons.1 h with h | h
        · exact .inl h
        · exact .inr (List.mem_cons_of_mem _ h)
      · rcases List.mem_cons.1 h with h | h
        · exact .inr (h ▸ List.mem_cons_self)
        · exact (ih h).imp id (List.mem_cons_of_mem _)

theorem insertByte_rising {m : Memory} (a : Nat) (v : Byte) (h : (m.map Prod.fst).Pairwise (· < ·)) :
    ((insertByte m a v).map Prod.fst).Pairwise (· < ·) := by
  induction m with
  | nil => simp [insertByte]
  | cons d rest ih =>
    simp only [List.map_cons, List.pairwise_cons, List.mem_map] at h
    unfold insertByte
    split
    · rename_i hlt
      simp only [List.map_cons, List.pairwise_cons, List.mem_cons, List.mem_map]
      refine ⟨?_, by simpa using h.1, h.2⟩
      rintro x (rfl | ⟨c, hc, rfl⟩)
      · exact hlt
      · exact hlt.trans (h.1 _ ⟨c, hc, rfl⟩)
    · split
      · rename_i heq
        simp only [List.map_cons, List.pairwise_cons, List.mem_map]
        exact ⟨heq ▸ h.1, h.2⟩
      · rename_i hlt hne
        simp only [List.map_cons, List.pairwise_cons, List.mem_map]
        refine ⟨?_, ih h.2⟩
        rintro x ⟨c, hc, rfl⟩
        rcases mem_insertByte hc with rfl | hc
        · show d.1 < a
          omega
        · exact h.1 _ ⟨c, hc, rfl⟩

/-- Writing a byte of the memory space keeps the canonical form. -/
theorem memWf_writeByte {m : Memory} {a : Nat} (v : Byte) (ha : a < Config.memBytes) (h : memWf m = true) :
    memWf (writeByte m a v) = true := by
  unfold writeByte
  split
  · exact memWf_eraseByte a h
  · rename_i hv
    rw [memWf_iff] at h ⊢
    refine ⟨insertByte_rising a v h.1, fun c hc => ?_⟩
    rcases mem_insertByte hc with rfl | hc
    · exact ⟨ha, hv⟩
    · exact h.2 c hc

theorem memWf_writeHalf {m : Memory} {a : Nat} (v : Half) (ha : a + 2 ≤ Config.memBytes) (h : memWf m = true) :
    memWf (writeHalf m a v) = true :=
  memWf_writeByte _ (by omega) (memWf_writeByte _ (by omega) h)

theorem memWf_writeWord {m : Memory} {a : Nat} (v : Word) (ha : a + 4 ≤ Config.memBytes) (h : memWf m = true) :
    memWf (writeWord m a v) = true :=
  memWf_writeHalf _ (by omega) (memWf_writeHalf _ (by omega) h)

/-- Every host write keeps the canonical form. -/
theorem memWf_writeSized {m : Memory} {a : Nat} (size : AccessSize) (v : Word)
    (ha : a + size.bytes ≤ Config.memBytes) (h : memWf m = true) : memWf (writeSized m size a v) = true := by
  cases size with
  | byte => exact memWf_writeByte _ (by simp only [AccessSize.bytes] at ha; omega) h
  | half => exact memWf_writeHalf _ (by simpa [AccessSize.bytes] using ha) h
  | word => exact memWf_writeWord _ (by simpa [AccessSize.bytes] using ha) h

/-- Memory at reset has the canonical form. -/
theorem memWf_reset : memWf State.reset.mem = true := by decide

theorem readByte_of_lt {m : Memory} {a : Nat} (h : ∀ c ∈ m, a < c.1) : readByte m a = unlisted := by
  induction m with
  | nil => rfl
  | cons c rest ih =>
    have hc : ¬ c.1 = a := by
      have := h c List.mem_cons_self
      omega
    simpa [readByte, hc] using ih fun d hd => h d (List.mem_cons_of_mem _ hd)

/-- Two memories in canonical form that read alike are the same data. -/
theorem memory_ext {m n : Memory} (hm : memWf m = true) (hn : memWf n = true)
    (h : ∀ a, readByte m a = readByte n a) : m = n := by
  rw [memWf_iff] at hm hn
  induction m generalizing n with
  | nil =>
    cases n with
    | nil => rfl
    | cons d n' =>
      have := h d.1
      exact absurd (by simpa [readByte] using this.symm) (hn.2 d List.mem_cons_self).2
  | cons c m' ih =>
    cases n with
    | nil =>
      have := h c.1
      exact absurd (by simpa [readByte] using this) (hm.2 c List.mem_cons_self).2
    | cons d n' =>
      simp only [List.map_cons, List.pairwise_cons, List.mem_map] at hm hn
      have hm' : ∀ e ∈ m', c.1 < e.1 := fun e he => hm.1.1 _ ⟨e, he, rfl⟩
      have hn' : ∀ e ∈ n', d.1 < e.1 := fun e he => hn.1.1 _ ⟨e, he, rfl⟩
      have hcd : c.1 = d.1 := by
        rcases Nat.lt_trichotomy c.1 d.1 with hlt | heq | hgt
        · have := h c.1
          rw [readByte_of_lt (m := d :: n')] at this
          · exact absurd (by simpa [readByte] using this) (hm.2 c List.mem_cons_self).2
          · intro e he
            rcases List.mem_cons.1 he with rfl | he
            · exact hlt
            · exact hlt.trans (hn' e he)
        · exact heq
        · have := h d.1
          rw [readByte_of_lt (m := c :: m')] at this
          · exact absurd (by simpa [readByte] using this.symm) (hn.2 d List.mem_cons_self).2
          · intro e he
            rcases List.mem_cons.1 he with rfl | he
            · exact hgt
            · exact hgt.trans (hm' e he)
      have hv : c.2 = d.2 := by simpa [readByte, hcd] using h c.1
      have htail : m' = n' := by
        refine ih ⟨hm.1.2, fun e he => hm.2 e (List.mem_cons_of_mem _ he)⟩
          ⟨hn.1.2, fun e he => hn.2 e (List.mem_cons_of_mem _ he)⟩ fun a => ?_
        by_cases ha : c.1 = a
        · subst ha
          rw [readByte_of_lt hm', readByte_of_lt (m := n') fun e he => hcd ▸ hn' e he]
        · have hb : ¬ d.1 = a := hcd ▸ ha
          simpa [readByte, ha, hb] using h a
      rw [htail, Prod.ext hcd hv]

/-- Writing back what a field held, after writing anything to it, gives the same memory (41_checksum_adapter R61 step 3). -/
theorem writeHalf_restore {m : Memory} {a : Nat} (v : Half) (ha : a + 2 ≤ Config.memBytes) (h : memWf m = true) :
    writeHalf (writeHalf m a v) a (readHalf m a) = m := by
  refine memory_ext (memWf_writeHalf _ ha (memWf_writeHalf _ ha h)) h fun b => ?_
  rw [readByte_writeHalf, readByte_writeHalf]
  by_cases h0 : b = a
  · simp [h0, readHalf]
  · by_cases h1 : b = a + 1
    · simp [h1, readHalf]
    · simp [h0, h1]

end Sys2Proof.Machine
end

