-- ==== Sys2Proof/Laws/State.lean ====
section
/-!
SUPPORT. The small lemmas of State and Block updates: one per field per update, true by rfl.
-/

namespace Sys2Proof.Machine

@[simp] theorem setBlk_blk (s : State) (b : Block) : (s.setBlk b).blk = b := rfl
@[simp] theorem setBlk_others (s : State) (b : Block) : (s.setBlk b).others = s.others := rfl
@[simp] theorem setBlk_mem (s : State) (b : Block) : (s.setBlk b).mem = s.mem := rfl
@[simp] theorem setBlk_platform (s : State) (b : Block) : (s.setBlk b).platform = s.platform := rfl
@[simp] theorem setBlk_turns (s : State) (b : Block) : (s.setBlk b).turns = s.turns := rfl
@[simp] theorem setBlk_results (s : State) (b : Block) : (s.setBlk b).results = s.results := rfl
@[simp] theorem setBlk_freeCtr (s : State) (b : Block) : (s.setBlk b).freeCtr = s.freeCtr := rfl
@[simp] theorem setBlk_setBlk (s : State) (b c : Block) : (s.setBlk b).setBlk c = s.setBlk c := rfl
@[simp] theorem setBlk_self (s : State) : s.setBlk s.blk = s := rfl

@[simp] theorem setMem_blk (s : State) (m : Memory) : (s.setMem m).blk = s.blk := rfl
@[simp] theorem setMem_others (s : State) (m : Memory) : (s.setMem m).others = s.others := rfl
@[simp] theorem setMem_mem (s : State) (m : Memory) : (s.setMem m).mem = m := rfl
@[simp] theorem setMem_platform (s : State) (m : Memory) : (s.setMem m).platform = s.platform := rfl
@[simp] theorem setMem_turns (s : State) (m : Memory) : (s.setMem m).turns = s.turns := rfl
@[simp] theorem setMem_results (s : State) (m : Memory) : (s.setMem m).results = s.results := rfl
@[simp] theorem setMem_freeCtr (s : State) (m : Memory) : (s.setMem m).freeCtr = s.freeCtr := rfl
@[simp] theorem setMem_self (s : State) : s.setMem s.mem = s := rfl
@[simp] theorem setMem_setMem (s : State) (m n : Memory) : (s.setMem m).setMem n = s.setMem n := rfl
theorem setMem_setBlk (s : State) (m : Memory) (b : Block) :
    (s.setMem m).setBlk b = (s.setBlk b).setMem m := rfl

@[simp] theorem pushResult_blk (s : State) (v : Word) : (s.pushResult v).blk = s.blk := rfl
@[simp] theorem pushResult_others (s : State) (v : Word) : (s.pushResult v).others = s.others := rfl
@[simp] theorem pushResult_mem (s : State) (v : Word) : (s.pushResult v).mem = s.mem := rfl
@[simp] theorem pushResult_platform (s : State) (v : Word) : (s.pushResult v).platform = s.platform := rfl
@[simp] theorem pushResult_turns (s : State) (v : Word) : (s.pushResult v).turns = s.turns := rfl
@[simp] theorem pushResult_results (s : State) (v : Word) : (s.pushResult v).results = s.results ++ [v] := rfl
@[simp] theorem pushResult_freeCtr (s : State) (v : Word) : (s.pushResult v).freeCtr = s.freeCtr := rfl

/-- Fault entry changes the addressed block and nothing else. -/
theorem raiseFault_eq (c : Cause) (ph : Phase) (s : State) :
    raiseFault c ph s = s.setBlk (s.blk.raiseFault c ph) := rfl

@[simp] theorem raiseFault_acc (b : Block) (c : Cause) (ph : Phase) : (b.raiseFault c ph).acc = b.acc := rfl
@[simp] theorem raiseFault_pageBase (b : Block) (c : Cause) (ph : Phase) :
    (b.raiseFault c ph).pageBase = b.pageBase := rfl
@[simp] theorem raiseFault_blkidx (b : Block) (c : Cause) (ph : Phase) :
    (b.raiseFault c ph).blkidx = b.blkidx := rfl
@[simp] theorem raiseFault_digest (b : Block) (c : Cause) (ph : Phase) :
    (b.raiseFault c ph).digest = b.digest := rfl
@[simp] theorem raiseFault_result (b : Block) (c : Cause) (ph : Phase) :
    (b.raiseFault c ph).result = b.result := rfl
@[simp] theorem raiseFault_saved (b : Block) (c : Cause) (ph : Phase) : (b.raiseFault c ph).saved = b.saved := rfl
@[simp] theorem raiseFault_savedValid (b : Block) (c : Cause) (ph : Phase) :
    (b.raiseFault c ph).savedValid = b.savedValid := rfl
@[simp] theorem raiseFault_comb (b : Block) (c : Cause) (ph : Phase) : (b.raiseFault c ph).comb = b.comb := rfl
@[simp] theorem raiseFault_phase (b : Block) (c : Cause) (ph : Phase) : (b.raiseFault c ph).phase = ph := rfl
@[simp] theorem raiseFault_idx (b : Block) (c : Cause) (ph : Phase) : (b.raiseFault c ph).idx = b.idx := rfl
@[simp] theorem raiseFault_op (b : Block) (c : Cause) (ph : Phase) : (b.raiseFault c ph).op = b.op := rfl
@[simp] theorem raiseFault_done (b : Block) (c : Cause) (ph : Phase) : (b.raiseFault c ph).done = b.done := rfl
@[simp] theorem raiseFault_wrerr (b : Block) (c : Cause) (ph : Phase) : (b.raiseFault c ph).wrerr = b.wrerr := rfl
/-- The first cause is kept (60_exceptions R88). -/
@[simp] theorem raiseFault_cause (b : Block) (c : Cause) (ph : Phase) :
    (b.raiseFault c ph).cause = if b.cause = .none then c else b.cause := rfl

@[simp] theorem accept_phase (b : Block) (i : Instr) : (b.accept i).phase = entryPhase i := rfl
@[simp] theorem accept_idx (b : Block) (i : Instr) : (b.accept i).idx = 0#11 := rfl
@[simp] theorem accept_op (b : Block) (i : Instr) : (b.accept i).op = i := rfl
@[simp] theorem accept_done (b : Block) (i : Instr) : (b.accept i).done = false := rfl
@[simp] theorem accept_acc (b : Block) (i : Instr) : (b.accept i).acc = b.acc := rfl
@[simp] theorem accept_pageBase (b : Block) (i : Instr) : (b.accept i).pageBase = b.pageBase := rfl
@[simp] theorem accept_blkidx (b : Block) (i : Instr) : (b.accept i).blkidx = b.blkidx := rfl
@[simp] theorem accept_savedValid (b : Block) (i : Instr) : (b.accept i).savedValid = b.savedValid := rfl
@[simp] theorem accept_cause (b : Block) (i : Instr) : (b.accept i).cause = b.cause := rfl

end Sys2Proof.Machine
end

