-- ==== Sys2Proof/Laws/Ops.lean ====
section
/-!
SUPPORT. What each shared operation can do, said once: the block's accesses, the guard of a register write, command
acceptance, and running an operation on one block instance.
-/

namespace Sys2Proof.Machine

/-! ### Accesses -/

/-- An access of the block completes exactly when its address exists and the platform admits it. -/
theorem busAccess_ok_iff {α : Type} (s : State) (a n : Nat) (v x : α) :
    busAccess s a n v = .ok x ↔ a + n ≤ Config.memBytes ∧ memAdmits s.platform a n = true ∧ x = v := by
  unfold busAccess
  split
  · split
    · rename_i h1 h2
      simp only [Bus.ok.injEq]
      exact ⟨fun e => ⟨h1, h2, e.symm⟩, fun e => e.2.2.symm⟩
    · simp_all
  · simp_all

theorem busAccess_error_iff {α : Type} (s : State) (a n : Nat) (v : α) :
    busAccess s a n v = .busError ↔ a + n ≤ Config.memBytes ∧ memAdmits s.platform a n = false := by
  unfold busAccess
  split
  · split <;> simp_all
  · simp_all

theorem busAccess_noAddress_iff {α : Type} (s : State) (a n : Nat) (v : α) :
    busAccess s a n v = .noAddress ↔ ¬ a + n ≤ Config.memBytes := by
  unfold busAccess
  split
  · split <;> simp_all
  · simp_all

/-- An access the platform admits completes (20_memory R37). -/
theorem busAccess_admitted {α : Type} {s : State} {a n : Nat} (v : α) (h : a + n ≤ Config.memBytes)
    (ha : memAdmits s.platform a n = true) : busAccess s a n v = .ok v :=
  (busAccess_ok_iff s a n v v).2 ⟨h, ha, rfl⟩

/-- An access the platform does not admit reports `BusError` (20_memory R37). -/
theorem busAccess_refused {α : Type} {s : State} {a n : Nat} (v : α) (h : a + n ≤ Config.memBytes)
    (ha : memAdmits s.platform a n = false) : busAccess s a n v = .busError :=
  (busAccess_error_iff s a n v).2 ⟨h, ha⟩

/-! ### The guard of a register write (42_host_access R74 to R77) -/

theorem guardedWrite_idle (f : State → Result) {s : State} (h : s.blk.phase = .idle) : guardedWrite f s = f s := by
  simp [guardedWrite, h]

theorem guardedWrite_faulted (f : State → Result) {s : State} (h : s.blk.phase = .faulted) :
    guardedWrite f s = .next s := by
  simp [guardedWrite, h]

theorem guardedWrite_busy (f : State → Result) {s : State} (h : s.blk.phase.busy = true) :
    guardedWrite f s = .next (s.setBlk { s.blk with wrerr := true }) := by
  unfold guardedWrite
  cases hp : s.blk.phase <;> simp_all [Phase.busy]

/-- Everything a guarded write can do. -/
theorem guardedWrite_cases {f : State → Result} {s t : State} (h : guardedWrite f s = .next t) :
    (s.blk.phase = .idle ∧ f s = .next t) ∨ (s.blk.phase = .faulted ∧ t = s) ∨
      (s.blk.phase.busy = true ∧ t = s.setBlk { s.blk with wrerr := true }) := by
  cases hp : s.blk.phase <;> simp_all [guardedWrite, Phase.busy]

/-! ### Commands (42_host_access R75) -/

/-- Everything the acceptance of a command can do. -/
theorem acceptCommand_cases {i : Instr} {s t : State} (h : acceptCommand i s = .next t) :
    (pageBaseOk s.blk.pageBase = true ∧ pageOrdinary s.platform s.blk.pageBase = true ∧
        t = s.setBlk (s.blk.accept i)) ∨
      (pageBaseOk s.blk.pageBase = false ∧ t = s.setBlk (s.blk.raiseFault .badBase .faulted)) := by
  unfold acceptCommand at h
  split at h
  · split at h
    · exact .inl ⟨‹_›, ‹_›, by simpa using h.symm⟩
    · simp at h
  · exact .inr ⟨by simp_all, by simpa [raiseFault] using h.symm⟩

/-- Both commands are a guarded write whose effect while idle is acceptance. -/
theorem exec_eq (i : Instr) (s : State) : exec i s = guardedWrite (acceptCommand i) s := by
  cases i <;> rfl

/-- Everything a command can do: accepted, `BAD_BASE`, dropped while faulted, or dropped with `WRERR` while busy. -/
theorem exec_cases {i : Instr} {s t : State} (h : exec i s = .next t) :
    (s.blk.phase = .idle ∧ pageBaseOk s.blk.pageBase = true ∧ pageOrdinary s.platform s.blk.pageBase = true ∧
        t = s.setBlk (s.blk.accept i)) ∨
      (s.blk.phase = .idle ∧ pageBaseOk s.blk.pageBase = false ∧
        t = s.setBlk (s.blk.raiseFault .badBase .faulted)) ∨
      (s.blk.phase = .faulted ∧ t = s) ∨
      (s.blk.phase.busy = true ∧ t = s.setBlk { s.blk with wrerr := true }) := by
  rw [exec_eq] at h
  rcases guardedWrite_cases h with ⟨hp, h⟩ | h | h
  · rcases acceptCommand_cases h with ⟨h1, h2, h3⟩ | ⟨h1, h2⟩
    · exact .inl ⟨hp, h1, h2, h3⟩
    · exact .inr (.inl ⟨hp, h1, h2⟩)
  · exact .inr (.inr (.inl h))
  · exact .inr (.inr (.inr h))

/-! ### Block instances (60_exceptions R96) -/

@[simp] theorem onBlock_zero (f : State → Result) (s : State) : onBlock 0 f s = f s := rfl

/-- What an operation on another block instance can do: it runs with that block in the addressed place, and what it
leaves there goes back to the list. -/
theorem onBlock_succ {j : Nat} {f : State → Result} {s t : State} (h : onBlock (j + 1) f s = .next t) :
    ∃ b u, s.others[j]? = some b ∧ f (s.setBlk b) = .next u ∧
      t = { u with blk := s.blk, others := s.others.set j u.blk } := by
  cases hb : s.others[j]? with
  | none => simp [onBlock, hb] at h
  | some b =>
    cases hu : f (s.setBlk b) with
    | next u => exact ⟨b, u, rfl, hu, by simpa [onBlock, hb, hu] using h.symm⟩
    | fault r => simp [onBlock, hb, hu] at h
    | refused r => simp [onBlock, hb, hu] at h

end Sys2Proof.Machine
end

