-- ==== Sys2Proof/Laws/MicroOp.lean ====
section
/-!
SUPPORT. What each micro-operation answers, and one lemma that says everything a step of the block can do.
-/

namespace Sys2Proof.Machine

/-! ### Completion -/

theorem opSave_ok {p : Config.Params} {s : State} (h : fieldAddr p s.blk + 2 ≤ Config.memBytes)
    (ha : memAdmits s.platform (fieldAddr p s.blk) 2 = true) :
    opSave p s = .next (s.setBlk { s.blk with saved := readHalf s.mem (fieldAddr p s.blk), phase := .zero }) := by
  simp [opSave, busReadHalf, busAccess_admitted _ h ha]

theorem opZero_ok {p : Config.Params} {s : State} (h : fieldAddr p s.blk + 2 ≤ Config.memBytes)
    (ha : memAdmits s.platform (fieldAddr p s.blk) 2 = true) :
    opZero p s = .next ((s.setBlk { s.blk with savedValid := true, phase := .init }).setMem
      (writeHalf s.mem (fieldAddr p s.blk) 0#16)) := by
  simp [opZero, busWriteHalf, busAccess_admitted _ h ha]

theorem opAbsorb_ok {s : State} (h : wordAddr s.blk + 4 ≤ Config.memBytes)
    (ha : memAdmits s.platform (wordAddr s.blk) 4 = true) :
    opAbsorb s = .next (s.setBlk (s.blk.absorbed (readWord s.mem (wordAddr s.blk)))) := by
  simp [opAbsorb, busReadWord, busAccess_admitted _ h ha]

theorem opRestore_ok {p : Config.Params} {s : State} (h : fieldAddr p s.blk + 2 ≤ Config.memBytes)
    (ha : memAdmits s.platform (fieldAddr p s.blk) 2 = true) :
    opRestore p s = .next ((s.setBlk { s.blk with savedValid := false, phase := .salt }).setMem
      (writeHalf s.mem (fieldAddr p s.blk) s.blk.saved)) := by
  simp [opRestore, busWriteHalf, busAccess_admitted _ h ha]

/-! ### The sequencer's two cases (40_lane_mixer R54 to R56) -/

theorem absorbed_last {b : Block} (x : Word) (h : b.idx.toNat = 2047) :
    b.absorbed x = { b with acc := mixLane b.acc b.idx.toNat x, phase := .final, idx := 0#11 } := if_pos h

theorem absorbed_more {b : Block} (x : Word) (h : b.idx.toNat ≠ 2047) :
    b.absorbed x = { b with acc := mixLane b.acc b.idx.toNat x, idx := b.idx + 1#11 } := if_neg h

theorem finalized_last {b : Block} (h : b.idx.toNat = 63) :
    b.finalized = { b with acc := mixLane b.acc b.idx.toNat 0#32, phase := .fold, idx := 0#11 } := if_pos h

theorem finalized_more {b : Block} (h : b.idx.toNat ≠ 63) :
    b.finalized = { b with acc := mixLane b.acc b.idx.toNat 0#32, idx := b.idx + 1#11 } := if_neg h

theorem folded_mix {b : Block} (h : b.idx.toNat = 31) (ho : b.op = .mix) :
    b.folded = { b with digest := foldDigest b, idx := 0#11, done := true, phase := .idle } := by
  simp [Block.folded, h, ho]

theorem folded_cksum {b : Block} (h : b.idx.toNat = 31) (ho : b.op = .cksum) :
    b.folded = { b with digest := foldDigest b, idx := 0#11, phase := .restore } := by
  simp [Block.folded, h, ho]

theorem folded_more {b : Block} (h : b.idx.toNat ≠ 31) :
    b.folded = { b with digest := foldDigest b, idx := b.idx + 1#11 } := if_neg h

/-! ### The whole of a step of the block -/

/-- Everything a micro-operation can do when it answers a next state (10_state R20). -/
theorem microOp_cases {p : Config.Params} {s t : State} (h : microOp p s = .next t) :
    (s.blk.phase.busy = false ∧ t = s) ∨
    (s.blk.phase = .save ∧
      t = s.setBlk { s.blk with saved := readHalf s.mem (fieldAddr p s.blk), phase := .zero }) ∨
    (s.blk.phase = .zero ∧ fieldAddr p s.blk + 2 ≤ Config.memBytes ∧
      t = (s.setBlk { s.blk with savedValid := true, phase := .init }).setMem
        (writeHalf s.mem (fieldAddr p s.blk) 0#16)) ∨
    (s.blk.phase = .init ∧ t = s.setBlk { s.blk with acc := p.base, phase := .absorb, idx := 0#11 }) ∨
    (s.blk.phase = .absorb ∧ memAdmits s.platform (wordAddr s.blk) 4 = true ∧
      t = s.setBlk (s.blk.absorbed (readWord s.mem (wordAddr s.blk)))) ∨
    (s.blk.phase = .final ∧ t = s.setBlk s.blk.finalized) ∨
    (s.blk.phase = .fold ∧ t = s.setBlk s.blk.folded) ∨
    (s.blk.phase = .restore ∧ fieldAddr p s.blk + 2 ≤ Config.memBytes ∧
      t = (s.setBlk { s.blk with savedValid := false, phase := .salt }).setMem
        (writeHalf s.mem (fieldAddr p s.blk) s.blk.saved)) ∨
    (s.blk.phase = .salt ∧
      t = s.setBlk { s.blk with comb := s.blk.digest ^^^ s.blk.blkidx, phase := .reduce }) ∨
    (s.blk.phase = .reduce ∧
      t = s.setBlk { s.blk with result := reduce16 s.blk.comb, done := true, phase := .idle }) ∨
    (s.blk.phase = .abort ∧ s.blk.savedValid = true ∧ fieldAddr p s.blk + 2 ≤ Config.memBytes ∧
      t = (s.setBlk { s.blk with savedValid := false, phase := .faulted }).setMem
        (writeHalf s.mem (fieldAddr p s.blk) s.blk.saved)) ∨
    (s.blk.phase = .abort ∧ t = s.setBlk { s.blk with phase := .faulted }) ∨
    ((s.blk.phase = .save ∨ s.blk.phase = .zero ∨ s.blk.phase = .absorb) ∧
      t = s.setBlk (s.blk.raiseFault .busError .abort)) ∨
    (s.blk.phase = .restore ∧ t = s.setBlk (s.blk.raiseFault .busError .faulted)) := by
  unfold microOp at h
  cases hp : s.blk.phase <;> simp only [hp] at h <;> simp only [Phase.busy, reduceCtorEq, false_and, true_and,
    false_or, or_false, or_true]
  · simpa using h.symm
  · unfold opSave busReadHalf at h
    split at h
    · rename_i v hv
      rw [busAccess_ok_iff] at hv
      exact .inl (by rw [← hv.2.2]; simpa using h.symm)
    · exact .inr (by simpa [raiseFault] using h.symm)
    · simp at h
  · unfold opZero busWriteHalf at h
    split at h
    · rename_i v hv
      rw [busAccess_ok_iff] at hv
      exact .inl ⟨hv.1, by rw [← hv.2.2]; simpa using h.symm⟩
    · exact .inr (by simpa [raiseFault] using h.symm)
    · simp at h
  · simpa [opInit] using h.symm
  · unfold opAbsorb busReadWord at h
    split at h
    · rename_i v hv
      rw [busAccess_ok_iff] at hv
      exact .inl ⟨hv.2.1, by rw [← hv.2.2]; simpa using h.symm⟩
    · exact .inr (by simpa [raiseFault] using h.symm)
    · simp at h
  · simpa [opFinal] using h.symm
  · simpa [opFold] using h.symm
  · unfold opRestore busWriteHalf at h
    split at h
    · rename_i v hv
      rw [busAccess_ok_iff] at hv
      exact .inl ⟨hv.1, by rw [← hv.2.2]; simpa using h.symm⟩
    · exact .inr (by simpa [raiseFault] using h.symm)
    · simp at h
  · simpa [opSalt] using h.symm
  · simpa [opReduce] using h.symm
  · unfold opAbort busWriteHalf at h
    split at h
    · rename_i hsv
      split at h
      · rename_i v hv
        rw [busAccess_ok_iff] at hv
        exact .inl ⟨hsv, hv.1, by rw [← hv.2.2]; simpa using h.symm⟩
      · exact .inr (by simpa using h.symm)
      · simp at h
    · exact .inr (by simpa using h.symm)
  · simpa using h.symm

/-- A step of the block touches the addressed block and memory only. -/
theorem microOp_frame {p : Config.Params} {s t : State} (h : microOp p s = .next t) :
    t.others = s.others ∧ t.platform = s.platform ∧ t.turns = s.turns ∧ t.results = s.results ∧
      t.freeCtr = s.freeCtr := by
  rcases microOp_cases h with ⟨_, rfl⟩ | ⟨_, rfl⟩ | ⟨_, _, rfl⟩ | ⟨_, rfl⟩ | ⟨_, _, rfl⟩ | ⟨_, rfl⟩ | ⟨_, rfl⟩ |
    ⟨_, _, rfl⟩ | ⟨_, rfl⟩ | ⟨_, rfl⟩ | ⟨_, _, _, rfl⟩ | ⟨_, rfl⟩ | ⟨_, rfl⟩ | ⟨_, rfl⟩ <;> simp

/-- What a step of the block may do to memory: nothing, or one write of the field with zero or `SAVED`
(20_memory R32). -/
theorem microOp_mem {p : Config.Params} {s t : State} (h : microOp p s = .next t) :
    t.mem = s.mem ∨ (fieldAddr p s.blk + 2 ≤ Config.memBytes ∧
      (t.mem = writeHalf s.mem (fieldAddr p s.blk) 0#16 ∨
        t.mem = writeHalf s.mem (fieldAddr p s.blk) s.blk.saved)) := by
  rcases microOp_cases h with ⟨_, rfl⟩ | ⟨_, rfl⟩ | ⟨_, hb, rfl⟩ | ⟨_, rfl⟩ | ⟨_, _, rfl⟩ | ⟨_, rfl⟩ | ⟨_, rfl⟩ |
    ⟨_, hb, rfl⟩ | ⟨_, rfl⟩ | ⟨_, rfl⟩ | ⟨_, _, hb, rfl⟩ | ⟨_, rfl⟩ | ⟨_, rfl⟩ | ⟨_, rfl⟩ <;> simp_all

end Sys2Proof.Machine
end

