-- ==== Sys2Proof/Laws/PerInstr.lean ====
section
/-!
SUPPORT. What holds of each command as syntax: it is well formed, and its word has the form 30_encoding R43 and R44 give
a command word.
-/

namespace Sys2Proof.Laws.WordForm

/-- The command is well formed, its word is one of the map, with `rsvd` zero and its own opcode, and the row of the map
that selects the word is its own (30_encoding R43, R44). -/
def Statement (i : Instr) : Prop :=
  WellFormed.instrOk i = true ∧ WellFormed.commandWordOk (encode i) = true ∧ rsvdField (encode i) = 0#24 ∧
    opcodeField (encode i) = opcodeOf i ∧
    ∀ r ∈ opcodeMap, r.selects (encode i) = true ↔ r.instr = i

theorem mix : Statement .mix := by
  simp only [Statement, opcodeMap, List.forall_mem_cons]
  decide

theorem cksum : Statement .cksum := by
  simp only [Statement, opcodeMap, List.forall_mem_cons]
  decide

end Sys2Proof.Laws.WordForm
end

