-- ==== Sys2Proof/Laws/Step.lean ====
section
/-!
SUPPORT. Everything a step of the system can do, said once: an operation on one block instance, a memory access of the
host, a change of what the platform admits, or nothing.
-/

namespace Sys2Proof.Machine

/-- What a host register write can do to the addressed block (42_host_access R74 to R78). -/
inductive RegEffect (s : State) : Block → Prop where
  | dropped : RegEffect s s.blk
  | accepted (i : Instr) (idle : s.blk.phase = .idle) (ok : pageBaseOk s.blk.pageBase = true)
      (ordinary : pageOrdinary s.platform s.blk.pageBase = true) : RegEffect s (s.blk.accept i)
  | badBase (idle : s.blk.phase = .idle) : RegEffect s (s.blk.raiseFault .badBase .faulted)
  | illegal (idle : s.blk.phase = .idle) : RegEffect s (s.blk.raiseFault .illegalCmd .faulted)
  | pageBase (v : Word) (idle : s.blk.phase = .idle) : RegEffect s { s.blk with pageBase := v }
  | blkidx (v : Word) (idle : s.blk.phase = .idle) : RegEffect s { s.blk with blkidx := v }
  | whileBusy (busy : s.blk.phase.busy = true) : RegEffect s { s.blk with wrerr := true }

/-- A register write has one of those effects on the addressed block and changes nothing else. -/
theorem regWrite_cases {off : Nat} {size : AccessSize} {v : Word} {s t : State}
    (h : regWrite off size v s = .next t) : ∃ b, RegEffect s b ∧ t = s.setBlk b := by
  unfold regWrite at h
  split at h
  · unfold writeCmd at h
    split at h
    · rcases exec_cases h with ⟨h1, h2, h3, h4⟩ | ⟨h1, _, h3⟩ | ⟨_, rfl⟩ | ⟨h1, h2⟩
      · exact ⟨_, .accepted _ h1 h2 h3, h4⟩
      · exact ⟨_, .badBase h1, h3⟩
      · exact ⟨_, .dropped, by simp⟩
      · exact ⟨_, .whileBusy h1, h2⟩
    · rcases guardedWrite_cases h with ⟨h1, h2⟩ | ⟨_, rfl⟩ | ⟨h1, h2⟩
      · exact ⟨_, .illegal h1, by simpa [raiseFault] using h2.symm⟩
      · exact ⟨_, .dropped, by simp⟩
      · exact ⟨_, .whileBusy h1, h2⟩
  · rcases guardedWrite_cases h with ⟨h1, h2⟩ | ⟨_, rfl⟩ | ⟨h1, h2⟩
    · exact ⟨_, .pageBase v h1, by simpa using h2.symm⟩
    · exact ⟨_, .dropped, by simp⟩
    · exact ⟨_, .whileBusy h1, h2⟩
  · rcases guardedWrite_cases h with ⟨h1, h2⟩ | ⟨_, rfl⟩ | ⟨h1, h2⟩
    · exact ⟨_, .blkidx v h1, by simpa using h2.symm⟩
    · exact ⟨_, .dropped, by simp⟩
    · exact ⟨_, .whileBusy h1, h2⟩
  all_goals exact ⟨_, .dropped, by simpa using h.symm⟩

/-- A register read changes the result list and the free-value counter only (42_host_access R73). -/
theorem regRead_cases {off : Nat} {size : AccessSize} {s t : State} (h : regRead off size s = .next t) :
    t.blk = s.blk ∧ t.others = s.others ∧ t.mem = s.mem ∧ t.platform = s.platform ∧ t.turns = s.turns := by
  unfold regRead at h
  split at h
  · obtain rfl := by simpa using h
    simp
  · obtain rfl := by simpa using h
    simp
  · simp at h

/-- The operations a step runs on one block instance, with the move they come from. -/
inductive BlockOp (m : Option Move) (k : Nat) : (State → Result) → Prop where
  | micro (h : m = none ∨ m = some (.block k)) : BlockOp m k (microOp Config.params)
  | read (off : Nat) (size : AccessSize) : BlockOp m k (regRead off size)
  | write (off : Nat) (size : AccessSize) (v : Word) : BlockOp m k (regWrite off size v)
  | reset (h : m = some (.reset k)) : BlockOp m k resetBlock
  | wait (h : m = some (.wait k)) : BlockOp m k fun t =>
      if t.blk.phase.busy then retake (.wait k) (microOp Config.params t) else regRead 0x04 .word t

/-- What such an operation can do to the addressed block and to memory; the rest of the system is as it was. -/
theorem blockOp_cases {m : Option Move} {k : Nat} {f : State → Result} {s t : State} (hf : BlockOp m k f)
    (h : f s = .next t) :
    (t.others = s.others ∧ t.platform = s.platform) ∧
      ((m = some (.reset k) ∧ t.blk = Block.reset s.freeCtr ∧ t.mem = s.mem) ∨
        ((m = none ∨ m = some (.block k) ∨ m = some (.wait k)) ∧
          ∃ u, microOp Config.params s = .next u ∧ t.blk = u.blk ∧ t.mem = u.mem) ∨
        (RegEffect s t.blk ∧ t.mem = s.mem)) := by
  cases hf with
  | micro hm =>
    have hfr := microOp_frame h
    exact ⟨⟨hfr.1, hfr.2.1⟩, .inr (.inl ⟨hm.imp id .inl, t, h, rfl, rfl⟩)⟩
  | read off size =>
    obtain ⟨h1, h2, h3, h4, _⟩ := regRead_cases h
    exact ⟨⟨h2, h4⟩, .inr (.inr ⟨h1 ▸ .dropped, h3⟩)⟩
  | write off size v =>
    obtain ⟨b, hb, rfl⟩ := regWrite_cases h
    exact ⟨⟨rfl, rfl⟩, .inr (.inr ⟨hb, rfl⟩)⟩
  | reset hm =>
    obtain rfl := by simpa [resetBlock] using h
    exact ⟨⟨rfl, rfl⟩, .inl ⟨hm, rfl, rfl⟩⟩
  | wait hm =>
    simp only at h
    split at h
    · cases hu : microOp Config.params s with
      | next u =>
        obtain rfl := by simpa [retake, hu] using h
        have hfr := microOp_frame hu
        exact ⟨⟨hfr.1, hfr.2.1⟩, .inr (.inl ⟨.inr (.inr hm), u, rfl, rfl, rfl⟩)⟩
      | fault r => simp [retake, hu] at h
      | refused r => simp [retake, hu] at h
    · obtain ⟨h1, h2, h3, h4, _⟩ := regRead_cases h
      exact ⟨⟨h2, h4⟩, .inr (.inr ⟨h1 ▸ .dropped, h3⟩)⟩

/-- The state in which the first move of `s` is taken: that move is gone from `turns`. -/
def afterTake (s : State) : State := { s with turns := s.turns.tail }

@[simp] theorem afterTake_blk (s : State) : (afterTake s).blk = s.blk := rfl
@[simp] theorem afterTake_others (s : State) : (afterTake s).others = s.others := rfl
@[simp] theorem afterTake_mem (s : State) : (afterTake s).mem = s.mem := rfl
@[simp] theorem afterTake_platform (s : State) : (afterTake s).platform = s.platform := rfl
@[simp] theorem afterTake_results (s : State) : (afterTake s).results = s.results := rfl
@[simp] theorem afterTake_freeCtr (s : State) : (afterTake s).freeCtr = s.freeCtr := rfl

/-- Everything a step of the system can do. -/
theorem step_cases {s t : State} (h : step s = .next t) :
    (∃ k f, BlockOp s.turns.head? k f ∧ onBlock k f (afterTake s) = .next t) ∨
      (∃ v, t = (afterTake s).pushResult v) ∨
      (∃ size a v, a + size.bytes ≤ Config.memBytes ∧
        t = (afterTake s).setMem (writeSized s.mem size a v) ∧ s.turns.head? = some (.memWrite size a v)) ∨
      (∃ r, t = { afterTake s with platform := { s.platform with refused := r } }) ∨
      (s.turns = [] ∧ t = s) := by
  unfold step takeTurn at h
  split at h
  · rename_i mv rest hturns
    have hs : { s with turns := rest } = afterTake s := by simp [afterTake, hturns]
    have hh : s.turns.head? = some mv := by simp [hturns]
    rw [hs] at h
    rw [hh]
    cases mv with
    | block k => exact .inl ⟨k, _, .micro (.inr rfl), h⟩
    | regRead k off size => exact .inl ⟨k, _, .read off size, h⟩
    | regWrite k off size v => exact .inl ⟨k, _, .write off size v, h⟩
    | memRead size a =>
      simp only [doMove, hostMemRead] at h
      split at h
      · split at h
        · exact .inr (.inl ⟨_, by simpa using h.symm⟩)
        · rename_i k off _
          exact .inl ⟨k, _, .read off size, h⟩
        · simp at h
      · simp at h
    | memWrite size a v =>
      simp only [doMove, hostMemWrite] at h
      split at h
      · rename_i hb
        split at h
        · exact .inr (.inr (.inl ⟨size, a, v, hb, by simpa using h.symm, rfl⟩))
        · rename_i k off _
          exact .inl ⟨k, _, .write off size v, h⟩
        · simp at h
      · simp at h
    | wait k => exact .inl ⟨k, _, .wait rfl, h⟩
    | reset k => exact .inl ⟨k, _, .reset rfl, h⟩
    | setAdmission r => exact .inr (.inr (.inr (.inl ⟨r, by simpa [doMove] using h.symm⟩)))
  · rename_i hturns
    have hs : afterTake s = s := by
      cases s
      simp_all [afterTake]
    split at h
    · rename_i k _
      exact .inl ⟨k, _, .micro (.inl (by simp [hturns])), hs.symm ▸ h⟩
    · exact .inr (.inr (.inr (.inr ⟨hturns, by simpa using h.symm⟩)))

/-- What a step can do to block 0: reset it, run its micro-operation (only in its own turn), write one of its registers,
or leave it. -/
theorem step_blk_cases {s t : State} (h : step s = .next t) :
    (s.turns.head? = some (.reset 0) ∧ t.blk = Block.reset s.freeCtr) ∨
      ((s.turns = [] ∨ s.turns.head? = some (.block 0) ∨ s.turns.head? = some (.wait 0)) ∧
        ∃ u, microOp Config.params (afterTake s) = .next u ∧ t.blk = u.blk) ∨ RegEffect (afterTake s) t.blk := by
  rcases step_cases h with ⟨k, f, hf, hk⟩ | ⟨v, rfl⟩ | ⟨_, _, _, _, rfl, _⟩ | ⟨r, rfl⟩ | ⟨_, rfl⟩
  · cases k with
    | zero =>
      obtain ⟨_, h1 | ⟨hm, u, hu, hb, _⟩ | ⟨he, _⟩⟩ := blockOp_cases hf hk
      · exact .inl ⟨h1.1, h1.2.1⟩
      · exact .inr (.inl ⟨hm.imp_left List.head?_eq_none_iff.mp, u, hu, hb⟩)
      · exact .inr (.inr he)
    | succ j =>
      obtain ⟨b, u, _, _, rfl⟩ := onBlock_succ hk
      exact .inr (.inr .dropped)
  · exact .inr (.inr .dropped)
  · exact .inr (.inr .dropped)
  · exact .inr (.inr .dropped)
  · exact .inr (.inr .dropped)

end Sys2Proof.Machine
end

