-- ==== Sys2Proof/Laws/Run.lean ====
section
/-!
SUPPORT. Runs: `runFor` in pieces, and the step of a busy block when no move is left.
-/

namespace Sys2Proof.Safety

open Sys2Proof.Machine

theorem runFor_succ {n : Nat} {s t : State} (h : step s = .next t) : runFor (n + 1) s = runFor n t := by
  simp [runFor, h]

/-- A run of `m + n` steps is a run of `m` steps and then one of `n`. -/
theorem runFor_add {m n : Nat} {s t : State} (h : runFor m s = .next t) : runFor (m + n) s = runFor n t := by
  induction m generalizing s with
  | zero =>
    obtain rfl := by simpa [runFor] using h
    simp
  | succ m ih =>
    rw [Nat.succ_add]
    cases hs : step s with
    | next u =>
      rw [runFor_succ hs] at h ⊢
      exact ih h
    | fault r => simp [runFor, hs] at h
    | refused r => simp [runFor, hs] at h

/-- A run that has a last step: `n` steps to `t`, then one. -/
theorem runFor_then {n : Nat} {s t u : State} (h : runFor n s = .next t) (hs : step t = .next u) :
    runFor (n + 1) s = .next u := by
  rw [runFor_add h, runFor_succ hs, runFor]

/-- With no move left, a busy block 0 takes its next micro-operation (70_reset_and_hazards R108). -/
theorem step_busy {s : State} (ht : s.turns = []) (hb : s.blk.phase.busy = true) :
    step s = microOp Config.params s := by
  simp [step, takeTurn, ht, firstBusy, hb]

/-- A run that repeats one shape of state: if step `k` goes from `f k` to `f (k + 1)` for every `k` below `n`, then `n`
steps go from `f 0` to `f n`. -/
theorem runFor_loop {f : Nat → State} {n : Nat} (h : ∀ k < n, step (f k) = .next (f (k + 1))) :
    runFor n (f 0) = .next (f n) := by
  induction n with
  | zero => rfl
  | succ n ih => exact runFor_then (ih fun k hk => h k (by omega)) (h n (by omega))

end Sys2Proof.Safety
end

