-- ==== Sys2Proof/Tests/Slice0.lean ====
section
/-!
SUPPORT. The model's own tests: expected values come from spec/95_test_vectors.md (V and P numbers) or are written out from
the cited rule. Then one witness for the hypotheses of each statement that has any.
-/

namespace Sys2Proof.Tests

open Sys2Proof.Machine Sys2Proof.Safety

/-! ### What well-formedness refuses -/

/-- 30_encoding R46: a command has no operand, so nothing is refused. -/
theorem test_wf_commands : WellFormed.instrOk .mix = true ∧ WellFormed.instrOk .cksum = true := by decide

/-- 30_encoding R43 to R45: a set reserved bit, opcode 0 and opcode 3 are refused. -/
theorem test_wf_words :
    WellFormed.commandWordOk 0x00000102#32 = false ∧ WellFormed.commandWordOk 0x80000001#32 = false ∧
      WellFormed.commandWordOk 0x00000000#32 = false ∧ WellFormed.commandWordOk 0x00000003#32 = false ∧
      WellFormed.commandWordOk 0x00000002#32 = true := by decide

/-- 00_scope R6: 8200 bytes are not a whole number of rows (S11), 63 is the wrong number of rows, and a row has bytes. -/
theorem test_wf_geometry :
    WellFormed.geometryOk ⟨8200, 4, 32, 64⟩ = false ∧ WellFormed.geometryOk ⟨8192, 4, 32, 63⟩ = false ∧
      WellFormed.geometryOk ⟨8192, 4, 0, 0⟩ = false ∧ WellFormed.geometryOk ⟨8192, 4, 32, 64⟩ = true := by decide

/-- 20_memory R30: an odd offset and an offset above 8190 are refused. -/
theorem test_wf_offset :
    WellFormed.fieldOffsetOk 7 = false ∧ WellFormed.fieldOffsetOk 8192 = false ∧
      WellFormed.paramsOk ⟨Config.baseTest, 9⟩ = false ∧ WellFormed.fieldOffsetOk 8190 = true := by decide

/-- 93 U1: a geometry that passes the check and is not the block's own is refused when parameters are built. -/
theorem test_wf_build :
    WellFormed.build ⟨4096, 4, 32, 32⟩ Config.baseZero 8 = none ∧
      WellFormed.build Config.geometry Config.baseZero 7 = none ∧
      WellFormed.build Config.geometry Config.baseZero 8 = some ⟨Config.baseZero, 8⟩ := by decide

/-! ### Decoding words written out from 30_encoding R43, R44 -/

/-- `MIX`: `rsvd` 24 zero bits, `opcode` 00000001. -/
theorem test_decode_mix : decode 0b000000000000000000000000_00000001#32 = .command .mix := by decide

/-- `CKSUM`: `rsvd` 24 zero bits, `opcode` 00000010. -/
theorem test_decode_cksum : decode 0b000000000000000000000000_00000010#32 = .command .cksum := by decide

/-- V54 to V56: opcode 0, a set reserved bit, opcode 3. -/
theorem test_decode_illegal :
    decode 0x00000000#32 = .illegal (.unknownOpcode 0x00#8) ∧ decode 0x00000102#32 = .illegal .reservedBits ∧
      decode 0x00000003#32 = .illegal (.unknownOpcode 0x03#8) ∧ decode 0x80000001#32 = .illegal .reservedBits := by
  decide

/-- The words of spec/opcode_table.json, 32 bits each. -/
theorem test_decode_table :
    decodeTableWord 32 1 = some .mix ∧ decodeTableWord 32 2 = some .cksum ∧ decodeTableWord 32 3 = none := by decide

/-! ### The functions -/

/-- V6, V7, V9: a logical shift, a product that wraps, and a general case. -/
theorem test_mixstep :
    mixstep 0x00000000#32 0x80000000#32 = 0x80004000#32 ∧ mixstep 0x00000000#32 0xFFFFFFFF#32 = 0xFEFF8192#32 ∧
      mixstep 0xDEADBEEF#32 0x01234567#32 = 0x761598DF#32 := by decide

/-- V15, V16: the largest input with a zero shifted term, and a shifted term of 1. -/
theorem test_mixstep_shift :
    mixstep 0x0001FFFF#32 0#32 = 0x0225FE6D#32 ∧ mixstep 0x00020001#32 0#32 = 0x04260192#32 := by decide

/-- V18, V19, V20, V33. -/
theorem test_reduce16 :
    reduce16 0x0000FFFE#32 = 0xFFFF#16 ∧ reduce16 0x0000FFFF#32 = 0x0001#16 ∧ reduce16 0x00010000#32 = 0x0002#16 ∧
      reduce16 0x12345678#32 = 0x68AD#16 := by decide

/-- V34: lane 0 of the zero page under `BASE_REF`, after rows 0, 1 and 2. -/
theorem test_lane_rows :
    laneRows Config.baseRef (fun _ => 0#32) 0 1 = 0x5B235D44#32 ∧
      laneRows Config.baseRef (fun _ => 0#32) 0 2 = 0xBCABFF9D#32 ∧
      laneRows Config.baseRef (fun _ => 0#32) 0 3 = 0x9FC33A72#32 := by decide

/-- V42: `checksum` of the zero page is `reduce16` of the digest V23 gives, `BASE_TEST`, blocks 0 and 5. -/
theorem test_checksum_end :
    reduce16 (0x75000C1B#32 ^^^ 0#32) = 0x811C#16 ∧ reduce16 (0x75000C1B#32 ^^^ 5#32) = 0x811F#16 := by decide

/-- V47: the word that holds the field, of page `PAT` with `CKSUM_OFF = 8`, with and without the field. -/
theorem test_field_word :
    wordsOf (zeroField 8 fun o => BitVec.ofNat 8 o) 2 = 0x0B0A0000#32 ∧
      wordsOf (fun o => BitVec.ofNat 8 o) 2 = 0x0B0A0908#32 := by decide

/-! ### Small states -/

/-- An idle block with lanes 0. -/
def blk : Block :=
  { phase := .idle, idx := 0#11, op := .mix, done := false, wrerr := false, cause := .none, pageBase := 0#32,
    blkidx := 0#32, savedValid := false, saved := 0#16, result := 0#16, comb := 0#32, digest := 0#32,
    acc := Config.baseZero }

/-- A system of one block. -/
def sys (b : Block) : State :=
  { blk := b, others := [], mem := [], platform := { refused := [], devices := [], windows := [] }, turns := [],
    results := [], freeCtr := 1 }

/-- A system of one block whose platform refuses every 2-byte and 4-byte access. -/
def refusing (b : Block) : State :=
  { sys b with platform := { refused := [⟨0, 0x100000000, 2⟩, ⟨0, 0x100000000, 4⟩], devices := [], windows := [] } }

/-- `BASE_TEST` and the field at offset 8 (95_test_vectors section 2). -/
def pTest : Config.Params := ⟨Config.baseTest, 8⟩

/-- The first 16 bytes of page `PAT` at `a`. -/
def patHead (a : Nat) : Memory :=
  [(a + 1, 1#8), (a + 2, 2#8), (a + 3, 3#8), (a + 4, 4#8), (a + 8, 8#8), (a + 9, 9#8), (a + 10, 10#8), (a + 11, 11#8)]

/-- What a step leaves, as a property of the next state; false for a fault or a refusal. -/
def leaves (r : Result) (f : State → Bool) : Bool :=
  match r with
  | .next t => f t
  | .fault _ => false
  | .refused _ => false

/-! ### Issuing commands (42_host_access R75 to R77) -/

/-- An accepted `MIX` goes to `INIT` and clears `DONE`. -/
theorem test_mix_accepted :
    leaves (exec .mix (sys { blk with done := true, op := .cksum, pageBase := 0x1000#32 })) (fun t =>
      t.blk.phase == .init && !t.blk.done && t.blk.op == .mix && status t.blk == 0x00000301#32) = true := by decide

/-- An accepted `CKSUM` goes to `SAVE`; the highest legal `PAGE_BASE` is 0xFFFFE000. -/
theorem test_cksum_accepted :
    leaves (exec .cksum (sys { blk with pageBase := 0xFFFFE000#32 })) (fun t =>
      t.blk.phase == .save && t.blk.op == .cksum && status t.blk == 0x00001101#32) = true := by decide

/-- P7: a misaligned `PAGE_BASE` gives `STATUS` 0x00000F24, and so does one that is too high. -/
theorem test_cksum_bad_base :
    leaves (exec .cksum (sys { blk with pageBase := 0x1002#32 })) (fun t => status t.blk == 0x00000F24#32) = true ∧
      leaves (exec .cksum (sys { blk with pageBase := 0xFFFFE004#32 })) (fun t => t.blk.cause == .badBase) = true := by
  decide

/-- V54: an illegal word gives `STATUS` 0x00000F14, also with a bad `PAGE_BASE` (60_exceptions R87). -/
theorem test_illegal_command :
    leaves (regWrite 0 .word 0x00000003#32 (sys { blk with pageBase := 2#32 })) (fun t =>
      status t.blk == 0x00000F14#32) = true := by decide

/-- A command while busy is dropped and sets `WRERR` (R76). -/
theorem test_mix_busy :
    leaves (exec .mix (sys { blk with phase := .absorb, op := .cksum })) (fun t =>
      t.blk.wrerr && t.blk.phase == .absorb && t.blk.op == .cksum) = true := by decide

/-- The next step after the word of `MIX` or of `CKSUM` is placed runs the command (log 2). -/
theorem test_step_runs :
    leaves (step ((sys blk).withFetchWord 32 1)) (fun t => t.blk.phase == .init) = true ∧
      leaves (step ((sys blk).withFetchWord 32 2)) (fun t => t.blk.phase == .save) = true := by decide

/-! ### Micro-operations -/

/-- 41_checksum_adapter R63, example: bytes 08 09 are saved as 0x0908. -/
theorem test_save :
    leaves (microOp pTest { sys { blk with phase := .save, pageBase := 0x1000#32 } with mem := patHead 0x1000 })
      (fun t => t.blk.saved == 0x0908#16 && t.blk.phase == .zero) = true := by decide

/-- 41_checksum_adapter R64, example: register `SAVED` reads 0x00010908 and the field reads 0. -/
theorem test_zero :
    leaves (microOp pTest { sys { blk with phase := .zero, saved := 0x0908#16, pageBase := 0x1000#32 } with
      mem := patHead 0x1000 }) (fun t =>
        savedReg t.blk == 0x00010908#32 && readWord t.mem 0x1008 == 0x0B0A0000#32 && memWf t.mem) = true := by decide

/-- 40_lane_mixer R53, example: lane 31 of `BASE_TEST` is 0x1F. -/
theorem test_init :
    leaves (microOp pTest (sys { blk with phase := .init, idx := 5#11 })) (fun t =>
      getLane t.blk.acc 31 == 0x0000001F#32 && t.blk.phase == .absorb && t.blk.idx == 0#11) = true := by decide

/-- V38: lane 2 of `BASE_TEST` absorbs word 2 of `PAT` with its field zeroed. -/
theorem test_absorb :
    leaves (microOp pTest { sys { blk with phase := .absorb, idx := 2#11, acc := Config.baseTest } with
      mem := [(10, 10#8), (11, 11#8)] }) (fun t =>
        getLane t.blk.acc 2 == 0x62BE06A3#32 && getLane t.blk.acc 3 == 3#32 && t.blk.idx == 3#11) = true := by decide

/-- 40_lane_mixer R54: word 2047 goes to lane 31, and `FINAL` is next. -/
theorem test_absorb_last :
    leaves (microOp pTest (sys { blk with phase := .absorb, idx := 2047#11, pageBase := 0xFFFFE000#32,
                                          acc := Config.baseTest })) (fun t =>
      t.blk.phase == .final && t.blk.idx == 0#11 && getLane t.blk.acc 31 == mixstep 31#32 0#32) = true := by decide

/-- 40_lane_mixer R55, example: a lane holding 1 gives 0x01000193; after step 63 comes `FOLD`. -/
theorem test_final :
    leaves (microOp pTest (sys { blk with phase := .final, idx := 33#11, acc := Config.baseTest })) (fun t =>
      getLane t.blk.acc 1 == 0x01000193#32 && t.blk.phase == .final && t.blk.idx == 34#11) = true ∧
      leaves (microOp pTest (sys { blk with phase := .final, idx := 63#11 })) (fun t =>
        t.blk.phase == .fold && t.blk.idx == 0#11) = true := by decide

/-- 40_lane_mixer R56: the old `DIGEST` never contributes at lane 0, and `MIX` ends after lane 31. -/
theorem test_fold_mix :
    leaves (microOp pTest (sys { blk with phase := .fold, digest := 0xFFFFFFFF#32, acc := Config.baseTest })) (fun t =>
      t.blk.digest == 0#32 && t.blk.idx == 1#11) = true ∧
      leaves (microOp pTest (sys { blk with phase := .fold, idx := 31#11, digest := 0x10#32, acc := Config.baseTest }))
        (fun t => t.blk.digest == 0x0F#32 && t.blk.done && t.blk.phase == .idle) = true := by decide

/-- 40_lane_mixer R56: a `CKSUM` goes on to `RESTORE`. -/
theorem test_fold_cksum :
    leaves (microOp pTest (sys { blk with phase := .fold, op := .cksum, idx := 31#11 })) (fun t =>
      t.blk.phase == .restore && !t.blk.done && t.blk.idx == 0#11) = true := by decide

/-- 41_checksum_adapter R65, example: `SAVED` 0x0908 goes back over what another agent wrote. -/
theorem test_restore :
    leaves (microOp pTest { sys { blk with phase := .restore, op := .cksum, saved := 0x0908#16, savedValid := true } with
      mem := [(8, 0x34#8), (9, 0x12#8)] }) (fun t =>
        readHalf t.mem 8 == 0x0908#16 && savedReg t.blk == 0x00000908#32 && t.blk.phase == .salt) = true := by decide

/-- 41_checksum_adapter R66, R67, examples: 0x6D34536E and block index 5 give 0xC0A0. -/
theorem test_salt_reduce :
    leaves (microOp pTest (sys { blk with phase := .salt, digest := 0x6D34536E#32, blkidx := 5#32 })) (fun t =>
      t.blk.comb == 0x6D34536B#32 && t.blk.phase == .reduce) = true ∧
      leaves (microOp pTest (sys { blk with phase := .reduce, op := .cksum, comb := 0x6D34536B#32 })) (fun t =>
        t.blk.result == 0xC0A0#16 && status t.blk == 0x00001002#32) = true := by decide

/-- P5: after the failing `ABSORB` the `STATUS` is 0x00001A31, and after `ABORT` 0x00001F34 with the field put back. -/
theorem test_abort :
    leaves (microOp pTest (refusing { blk with phase := .absorb, op := .cksum, savedValid := true, idx := 1024#11 }))
      (fun t => status t.blk == 0x00001A31#32 && t.blk.idx == 1024#11) = true ∧
      leaves (microOp pTest (sys { blk with phase := .abort, op := .cksum, cause := .busError, savedValid := true,
                                            saved := 0x0908#16 })) (fun t =>
        status t.blk == 0x00001F34#32 && savedReg t.blk == 0x00000908#32 && readHalf t.mem 8 == 0x0908#16) = true := by
  decide

/-- P6: a refused `RESTORE` goes to `FAULTED` directly and `SAVED_VALID` stays 1. -/
theorem test_restore_refused :
    leaves (microOp pTest (refusing { blk with phase := .restore, op := .cksum, savedValid := true,
                                               saved := 0x0908#16 })) (fun t =>
      status t.blk == 0x00001F34#32 && savedReg t.blk == 0x00010908#32) = true := by decide

/-! ### The host -/

/-- P4: `STATUS` while a `CKSUM` has taken exactly one step and a write has been dropped. -/
theorem test_status_p4 :
    status { blk with phase := .zero, op := .cksum, wrerr := true } = 0x00001209#32 := by decide

/-- 42_host_access R73, V51: every register of the machine after reset reads 0. -/
theorem test_reset_registers : ∀ r ∈ [Reg.cmd, .status, .pageBase, .blkidx, .digest, .result, .saved, .reserved],
    regValue State.reset.blk r = 0#32 := by decide

/-- 30_encoding R48: the pseudo-instruction `cksum` is these five lines. -/
theorem test_script :
    Script.cksumPage 0x20000#32 5#32 =
      [.regWrite 0 0x08 .word 0x20000#32, .regWrite 0 0x0C .word 5#32, .regWrite 0 0x00 .word 2#32, .wait 0,
        .regRead 0 0x14 .word] := by decide

/-- A 4-byte host write is little-endian, keeps memory canonical, and writing zeros removes the entries (log 11). -/
theorem test_mem_write :
    writeSized [] .word 0x10 0x0A0B0C00#32 = [(0x11, 0x0C#8), (0x12, 0x0B#8), (0x13, 0x0A#8)] ∧
      writeSized [(0x11, 1#8), (0x20, 7#8)] .half 0x10 0#32 = [(0x20, 7#8)] := by decide

/-- A mapped window is reached by a memory access (log 8): `mr4 REG_BASE + 8` reads `PAGE_BASE`. -/
theorem test_window :
    leaves (hostMemRead .word 0x4008
      { sys { blk with pageBase := 0x1234#32 } with
        platform := { refused := [], devices := [], windows := [⟨0, 0x4000⟩] } })
      (fun t => t.results == [0x1234#32]) = true := by decide

/-- The platform changes what it admits, and the access past the top of memory does not exist (logs 6, 14). -/
theorem test_platform :
    leaves (step { sys blk with turns := [.setAdmission [⟨0, 16, 4⟩]] }) (fun t =>
      !memAdmits t.platform 12 4 && memAdmits t.platform 16 4 && memAdmits t.platform 12 2) = true ∧
      hostMemRead .half 0xFFFFFFFF (sys blk) = .fault .noSuchAddress := by
  exact ⟨by decide, rfl⟩

/-! ### Witnesses: states that meet the hypotheses of each statement -/

/-- `BlockInv` is met by an idle block that has run nothing. -/
theorem blk_inv : BlockInv ⟨[], [], []⟩ blk := by
  constructor <;> decide

/-- `Ready` is met at both ends of the legal range of `PAGE_BASE`. -/
theorem ready_low : Ready (sys blk) := by
  constructor <;> decide

theorem ready_high : Ready (sys { blk with pageBase := 0xFFFFE000#32 }) := by
  constructor <;> decide

theorem words_admitted (b : Block) : WordsAdmitted (sys b) := fun _ _ => rfl

theorem field_admitted (p : Config.Params) (b : Block) : FieldAdmitted p (sys b) := rfl

theorem test_witness_commandAcceptance :
    blk.phase = .idle ∧ ((0x00000003#32 : Word) ≠ 0x00000001#32 ∧ (0x00000003#32 : Word) ≠ 0x00000002#32) ∧
      ((0xFFFFE004#32 : Word).toNat % 4 ≠ 0 ∨ 0xFFFFE000 < (0xFFFFE004#32 : Word).toNat) ∧
      ((2#32 : Word).toNat % 4 ≠ 0 ∨ 0xFFFFE000 < (2#32 : Word).toNat) ∧
      ((0xFFFFE000#32 : Word).toNat % 4 = 0 ∧ (0xFFFFE000#32 : Word).toNat ≤ 0xFFFFE000) ∧
      pageOrdinary (sys blk).platform 0xFFFFE000#32 = true := by decide

/-- A device at the last byte of the page, at the first byte after it, and an empty range inside it. -/
theorem test_witness_pageNotOrdinary :
    (sys blk).blk.phase = .idle ∧ pageBaseOk blk.pageBase = true ∧
      pageOrdinary ⟨[], [⟨8191, 8192⟩], []⟩ blk.pageBase = false ∧
      pageOrdinary ⟨[], [⟨8192, 8193⟩], []⟩ blk.pageBase = true ∧
      pageOrdinary ⟨[], [], [⟨0, 8191⟩]⟩ blk.pageBase = false ∧
      pageOrdinary ⟨[], [⟨100, 100⟩], []⟩ blk.pageBase = true := by decide

theorem test_witness_busyWrites :
    ({ blk with phase := .save } : Block).phase.busy = true ∧ ({ blk with phase := .abort } : Block).phase.busy = true ∧
      ((0x0C : Nat) = 0x00 ∨ (0x0C : Nat) = 0x08 ∨ (0x0C : Nat) = 0x0C) := by decide

theorem test_witness_faultedWrites :
    ({ blk with phase := .faulted, cause := .busError } : Block).phase = .faulted ∧ 0x00 % 4 = 0 ∧ 0x1C % 4 = 0 ∧
      0x20 % 4 = 0 := by decide

theorem test_witness_commandFrame :
    (∃ t, exec .mix (sys blk) = .next t) ∧ ∃ t, exec .cksum (sys { blk with pageBase := 1#32 }) = .next t :=
  ⟨⟨_, rfl⟩, ⟨_, rfl⟩⟩

theorem test_witness_mixRuns : Ready (sys blk) ∧ WordsAdmitted (sys blk) ∧ (sys blk).turns = [] :=
  ⟨ready_low, words_admitted blk, rfl⟩

theorem test_witness_cksumRuns :
    Ready (sys { blk with pageBase := 0xFFFFE000#32 }) ∧ WordsAdmitted (sys { blk with pageBase := 0xFFFFE000#32 }) ∧
      FieldAdmitted Config.params (sys { blk with pageBase := 0xFFFFE000#32 }) ∧
      memWf (sys { blk with pageBase := 0xFFFFE000#32 }).mem = true ∧
      (sys { blk with pageBase := 0xFFFFE000#32 }).turns = [] :=
  ⟨ready_high, words_admitted _, field_admitted _ _, rfl, rfl⟩

theorem test_witness_everyCommandEnds :
    Ready (sys blk) ∧ BlockInv (sys blk).platform (sys blk).blk ∧ (sys blk).turns = [] :=
  ⟨ready_low, blk_inv, rfl⟩

/-- A platform that refuses every access of the block: the case that faults. -/
theorem test_witness_everyCommandFaults :
    Ready (refusing blk) ∧ BlockInv (refusing blk).platform (refusing blk).blk ∧ (refusing blk).turns = [] ∧
      memAdmits (refusing blk).platform (wordAddr blk) 4 = false := by
  refine ⟨?_, ?_, rfl, by decide⟩ <;> constructor <;> decide

theorem test_witness_zeroWindow :
    Ready (sys blk) ∧ WordsAdmitted (sys blk) ∧ FieldAdmitted Config.params (sys blk) ∧ (sys blk).turns = [] ∧
      (2 ≤ 2 ∧ 2 ≤ 2147) ∧ 2 ≤ 2147 ∧ 2147 ≤ 2147 :=
  ⟨ready_low, words_admitted _, field_admitted _ _, rfl, by decide, by decide, by decide⟩

/-- Two states that differ in the lanes, `DIGEST`, `RESULT`, `SAVED` and `DONE`. -/
theorem test_witness_noResultCarried :
    Ready (sys blk) ∧ WordsAdmitted (sys blk) ∧ FieldAdmitted Config.params (sys blk) ∧ (sys blk).turns = [] ∧
      Ready (sys { blk with done := true, saved := 7#16, result := 9#16, digest := 3#32, acc := Config.baseTest }) ∧
      WordsAdmitted (sys { blk with done := true, saved := 7#16, result := 9#16, digest := 3#32,
                                    acc := Config.baseTest }) ∧
      FieldAdmitted Config.params (sys { blk with done := true, saved := 7#16, result := 9#16, digest := 3#32,
                                                  acc := Config.baseTest }) ∧
      memWf (sys blk).mem = true := by
  refine ⟨ready_low, words_admitted _, field_admitted _ _, rfl, ?_, words_admitted _, field_admitted _ _, rfl⟩
  constructor <;> decide

/-- In `INIT`, and in `ABSORB` with a page that is read word by word. -/
theorem test_witness_tracks :
    (Tracks Config.base (fun _ => 0#32) { blk with phase := .init } ∧
      ∃ t, step (sys { blk with phase := .init }) = .next t) ∧
    (Tracks Config.base (fun _ => 0#32) { blk with phase := .absorb, acc := Config.base } ∧
      readWord (sys { blk with phase := .absorb, acc := Config.base }).mem
        (wordAddr { blk with phase := .absorb, acc := Config.base }) = 0#32 ∧
      ∃ t, step (sys { blk with phase := .absorb, acc := Config.base }) = .next t) :=
  ⟨⟨trivial, ⟨_, rfl⟩⟩, ⟨rfl, rfl, ⟨_, rfl⟩⟩⟩

/-- In `ABSORB`, the host writes the word about to be read: `W` has the new word, and the old one is still in memory. -/
theorem test_witness_tracks_race :
    Tracks Config.base (fun _ => 7#32) { blk with phase := .absorb, acc := Config.base } ∧
      ¬ OwnTurn { sys { blk with phase := .absorb, acc := Config.base } with turns := [.memWrite .word 0 7#32] } ∧
      readWord (sys { blk with phase := .absorb, acc := Config.base }).mem
        (wordAddr { blk with phase := .absorb, acc := Config.base }) = 0#32 ∧
      ∃ t, step { sys { blk with phase := .absorb, acc := Config.base } with turns := [.memWrite .word 0 7#32] } =
        .next t :=
  ⟨rfl, by simp [OwnTurn], rfl, ⟨_, rfl⟩⟩

theorem test_witness_operandWrites : (sys blk).blk.phase = .idle := rfl

theorem test_witness_readOnlyWrites :
    ((0x1C : Nat) = 0x04 ∨ (0x1C : Nat) = 0x10 ∨ (0x1C : Nat) = 0x14 ∨ (0x1C : Nat) = 0x18 ∨ (0x1C : Nat) = 0x1C) ∧
      0x20 ≤ 0x20 ∧ 0x20 ≤ 0x24 := by decide

theorem test_witness_badShape :
    ((0x1F : Nat) < 0x20 ∧ ((.word : AccessSize) ≠ .word ∨ (0x1F : Nat) % 4 ≠ 0)) ∧
      ((0x00 : Nat) < 0x20 ∧ ((.byte : AccessSize) ≠ .word ∨ (0x00 : Nat) % 4 ≠ 0)) := by decide

theorem test_witness_waitPolls :
    ({ sys blk with turns := [.wait 0] } : State).turns = .wait 0 :: [] ∧ blk.phase.busy = false ∧
      ({ blk with phase := .salt } : Block).phase.busy = true ∧
      ∃ t, microOp Config.params (sys { blk with phase := .salt }) = .next t :=
  ⟨rfl, rfl, rfl, ⟨_, rfl⟩⟩

/-- The last word of memory, and a byte. -/
theorem test_witness_hostReadBack :
    (0xFFFFFFFC + AccessSize.word.bytes ≤ Config.memBytes ∧
      memTarget (sys blk).platform 0xFFFFFFFC AccessSize.word.bytes = .memory) ∧
    (0 + AccessSize.byte.bytes ≤ Config.memBytes ∧
      memTarget (sys blk).platform 0 AccessSize.byte.bytes = .memory) := by decide

/-- The word case, run. -/
theorem test_host_read_back :
    leaves (runFor 2 { sys blk with turns := [.memWrite .word 0xFFFFFFFC 0x89ABCDEF#32, .memRead .word 0xFFFFFFFC] })
      (fun t => t.results == [0x89ABCDEF#32]) = true := by decide

theorem test_witness_stepRunsDecoded :
    ({ sys blk with turns := [.regWrite 0 0x00 .word 1#32] } : State).turns = .regWrite 0 0x00 .word 1#32 :: [] ∧
      decode 1#32 = .command .mix ∧ decodeTableWord 32 2 = some .cksum := by decide

theorem test_witness_noMoveLeft :
    (sys { blk with phase := .reduce }).turns = [] ∧ ({ blk with phase := .reduce } : Block).phase.busy = true ∧
      (sys blk).turns = [] ∧ (sys blk).blk.phase.busy = false ∧ ∀ b ∈ (sys blk).others, b.phase.busy = false := by
  decide

/-- Block 0 and the first other instance idle, the second other instance in `SALT`. -/
theorem test_witness_otherBusy :
    let s : State := { sys blk with others := [blk, { blk with phase := .salt, op := .cksum }] }
    s.turns = [] ∧ s.blk.phase.busy = false ∧ s.others[1]? = some { blk with phase := .salt, op := .cksum } ∧
      (∀ i < 1, ∀ c, s.others[i]? = some c → c.phase.busy = false) ∧
      ∃ u, microOp Config.params (s.setBlk { blk with phase := .salt, op := .cksum }) = .next u := by
  refine ⟨rfl, rfl, rfl, fun i hi c hc => ?_, ⟨_, rfl⟩⟩
  obtain rfl : i = 0 := by omega
  obtain rfl : blk = c := by simpa using hc
  rfl

theorem test_witness_phases :
    ({ blk with phase := .init } : Block).phase = .init ∧ ({ blk with phase := .salt } : Block).phase = .salt ∧
      ({ blk with phase := .reduce } : Block).phase = .reduce ∧
      (({ blk with phase := .final, idx := 63#11 } : Block).phase = .final ∧
        (31 : Fin 32).val = (63#11 : BitVec 11).toNat % 32) ∧
      (({ blk with phase := .final, idx := 0#11 } : Block).phase = .final ∧
        (0 : Fin 32).val = (0#11 : BitVec 11).toNat % 32) := by decide

/-- The last word of the highest page, admitted and refused. -/
theorem test_witness_absorb :
    ({ blk with phase := .absorb, idx := 2047#11, pageBase := 0xFFFFE000#32 } : Block).phase = .absorb ∧
      (0xFFFFE000#32 : Word).toNat + 4 * (2047#11 : BitVec 11).toNat + 4 ≤ 4294967296 ∧
      memAdmits (sys blk).platform 0xFFFFFFFC 4 = true ∧ memAdmits (refusing blk).platform 0xFFFFFFFC 4 = false ∧
      (31 : Fin 32).val = (2047#11 : BitVec 11).toNat % 32 := by decide

theorem test_witness_fold :
    ((0#11 : BitVec 11).toNat < 32 ∧ (0 : Fin 32).val = (0#11 : BitVec 11).toNat ∧ (0#11 : BitVec 11) ≠ 31#11) ∧
      ((31#11 : BitVec 11).toNat < 32 ∧ (31 : Fin 32).val = (31#11 : BitVec 11).toNat) ∧
      ({ blk with phase := .fold, idx := 31#11, op := .cksum } : Block).op = .cksum ∧ blk.op = .mix := by decide

/-- `SAVE`, `ZERO`, `RESTORE` and `ABORT` with the field at the very top of memory, admitted and refused. -/
theorem test_witness_field_steps :
    ({ blk with phase := .save } : Block).phase = .save ∧ ({ blk with phase := .zero } : Block).phase = .zero ∧
      ({ blk with phase := .restore } : Block).phase = .restore ∧
      ({ blk with phase := .abort } : Block).phase = .abort ∧
      (0xFFFFE000#32 : Word).toNat + (⟨Config.baseTest, 8190⟩ : Config.Params).cksumOff + 2 ≤ 4294967296 ∧
      memAdmits (sys blk).platform 0xFFFFFFFE 2 = true ∧ memAdmits (refusing blk).platform 0xFFFFFFFE 2 = false ∧
      ({ blk with phase := .abort, savedValid := true } : Block).savedValid = true ∧ blk.savedValid = false := by decide

/-- A platform that refuses word reads and admits the field. -/
theorem test_witness_busError :
    ({ blk with phase := .absorb, savedValid := true } : Block).phase = .absorb ∧ blk.cause = .none ∧
      ({ blk with phase := .absorb, savedValid := true } : Block).savedValid = true ∧
      wordAddr blk + 4 ≤ Config.memBytes ∧ fieldAddr pTest blk + 2 ≤ Config.memBytes ∧
      memAdmits ⟨[⟨0, 0x100000000, 4⟩], [], []⟩ (wordAddr blk) 4 = false ∧
      memAdmits ⟨[⟨0, 0x100000000, 4⟩], [], []⟩ (fieldAddr pTest blk) 2 = true := by decide

theorem test_witness_onlyFieldWritten :
    ∃ t, microOp pTest (sys { blk with phase := .zero, op := .cksum }) = .next t := ⟨_, rfl⟩

theorem test_witness_mixNoMemory :
    BlockInv (sys blk).platform { blk with phase := .final, idx := 63#11 } ∧ blk.op = .mix ∧
      ∃ t, microOp pTest (sys { blk with phase := .final, idx := 63#11 }) = .next t := by
  refine ⟨?_, rfl, ⟨_, rfl⟩⟩
  constructor <;> decide

/-- Two memories that agree on the page at 0 and differ just above it. -/
theorem test_witness_onlyPage :
    pTest.cksumOff ≤ 8190 ∧ (∀ o < 8192, readByte [(8192, 1#8)] (0 + o) = readByte [] (0 + o)) ∧
      ∃ t, microOp pTest (sys { blk with phase := .zero, op := .cksum }) = .next t := by
  refine ⟨by decide, fun o ho => ?_, ⟨_, rfl⟩⟩
  have h : ¬ 8192 = o := by omega
  simp [readByte, h]

theorem test_witness_onlyWriters :
    (sys { blk with phase := .fold }).turns.head? ≠ some (.reset 0) ∧
      ∃ t, step (sys { blk with phase := .fold, idx := 31#11 }) = .next t :=
  ⟨by decide, ⟨_, rfl⟩⟩

theorem test_witness_mixstepLaws :
    (3#32 : Word) = 1#32 ^^^ 2#32 ∧ (1#32 : Word) ^^^ 2#32 = 3#32 ^^^ 0#32 := by decide

/-- Two tables and two pages that agree on lane 0 and in column 0 only. -/
theorem test_witness_lanes :
    getLane Config.baseTest 0 = getLane Config.baseZero 0 ∧
      ∀ r < 64, (fun w => if w % 32 = 0 then 5#32 else 1#32 : Nat → Word) (32 * r + (0 : Fin 32).val) =
        (fun w => if w % 32 = 0 then 5#32 else 2#32 : Nat → Word) (32 * r + (0 : Fin 32).val) := by decide

theorem test_witness_resultNeverZero :
    BlockInv ⟨[], [], []⟩ { blk with op := .cksum, done := true, result := 1#16 } ∧
      ({ blk with op := .cksum, done := true, result := 1#16 } : Block).done = true := by
  refine ⟨?_, rfl⟩
  constructor <;> decide

/-- Pages that differ in both bytes of the field. -/
theorem test_witness_fieldIndependence :
    ∀ o < 8192, o ≠ pTest.cksumOff → o ≠ pTest.cksumOff + 1 →
      (fun _ => 0#8 : Nat → Byte) o = (fun n => if n = 8 ∨ n = 9 then 0xAA#8 else 0#8 : Nat → Byte) o := by
  intro o _ h1 h2
  have h : ¬ (o = 8 ∨ o = 9) := fun e => e.elim h1 h2
  simp [h]

theorem test_witness_fieldWord :
    0 % 2 = 0 ∧ 0 % 4 = 0 ∧ 8188 % 2 = 0 ∧ 8188 % 4 = 0 ∧ 2 % 2 = 0 ∧ 2 % 4 = 2 ∧ 8190 % 2 = 0 ∧ 8190 % 4 = 2 := by
  decide

theorem test_witness_geometry : WellFormed.geometryOk Config.geometry = true ∧
    WellFormed.geometryOk { Config.geometry with nLanes := 31 } = false ∧ (7 % 2 = 1 ∨ 8190 < 7) ∧
    (8191 % 2 = 1 ∨ 8190 < 8191) ∧ (8192 % 2 = 1 ∨ 8190 < 8192) ∧ 0 % 2 = 0 ∧ 8190 % 2 = 0 ∧ 8190 ≤ 8190 := by
  decide

/-- A `CKSUM` in the zero window, whose next step is an `ABSORB`. -/
theorem test_witness_inv :
    SysInv (sys { blk with phase := .absorb, op := .cksum, savedValid := true, idx := 2047#11 }) ∧
      ∃ t, step (sys { blk with phase := .absorb, op := .cksum, savedValid := true, idx := 2047#11 }) = .next t := by
  refine ⟨⟨rfl, ?_, by simp [sys]⟩, ⟨_, rfl⟩⟩
  constructor <;> decide

theorem test_witness_faulted :
    ({ blk with phase := .faulted, cause := .badBase } : Block).phase = .faulted ∧
      ({ sys { blk with phase := .faulted, cause := .badBase } with
        turns := [.regWrite 0 0x00 .word 1#32] } : State).turns.head? ≠ some (.reset 0) ∧
      ∃ t, step { sys { blk with phase := .faulted, cause := .badBase } with
        turns := [.regWrite 0 0x00 .word 1#32] } = .next t :=
  ⟨rfl, by decide, ⟨_, rfl⟩⟩

theorem test_witness_busyUndisturbed :
    ({ blk with phase := .salt, op := .cksum } : Block).phase.busy = true ∧
      ({ sys { blk with phase := .salt, op := .cksum } with
        turns := [.regWrite 0 0x08 .word 4#32] } : State).turns.head? ≠ some (.reset 0) ∧
      ∃ t, step { sys { blk with phase := .salt, op := .cksum } with
        turns := [.regWrite 0 0x08 .word 4#32] } = .next t :=
  ⟨rfl, by decide, ⟨_, rfl⟩⟩

theorem test_witness_onlyReset :
    ({ blk with phase := .faulted, cause := .badBase, wrerr := true } : Block).wrerr = true ∧
      ({ blk with phase := .faulted, cause := .badBase, wrerr := true } : Block).cause ≠ .none ∧
      ∃ t, step (sys { blk with phase := .faulted, cause := .badBase, wrerr := true }) = .next t :=
  ⟨rfl, by decide, ⟨_, rfl⟩⟩

/-- Two blocks on pages that touch: the second is in `SALT`. -/
theorem test_witness_others :
    ({ sys blk with others := [{ blk with phase := .salt, op := .cksum, pageBase := 8192#32 }],
                    turns := [.block 1] } : State).others[0]? =
        some { blk with phase := .salt, op := .cksum, pageBase := 8192#32 } ∧
      (∃ t, step { sys blk with others := [{ blk with phase := .salt, op := .cksum, pageBase := 8192#32 }],
                                turns := [.block 1] } = .next t) ∧
      ((8192#32 : Word).toNat + 8192 ≤ blk.pageBase.toNat ∨ blk.pageBase.toNat + 8192 ≤ (8192#32 : Word).toNat) :=
  ⟨rfl, ⟨_, rfl⟩, by decide⟩

theorem test_witness_resetMove :
    ({ sys { blk with phase := .faulted, cause := .busError } with turns := [.reset 0] } : State).turns =
      .reset 0 :: [] := rfl

end Sys2Proof.Tests
end

section
/-!
The configuration checks of 00_scope R6 and R7 as facts about their three functions: what each check accepts, and when
parameters are built.
-/

namespace Sys2Proof.WellFormed

/-- A field offset passes exactly when 20_memory R30 allows it. -/
theorem fieldOffsetOk_iff (off : Nat) : fieldOffsetOk off = true ↔ off % 2 = 0 ∧ off ≤ 8190 := by
  simp [fieldOffsetOk]

/-- A geometry passes exactly when its rows are not empty, fill the page and are counted by `nRows`. -/
theorem geometryOk_iff (g : Config.Geometry) :
    geometryOk g = true ↔
      0 < g.wordBytes * g.nLanes ∧ g.pageSize % (g.wordBytes * g.nLanes) = 0 ∧
        g.nRows = g.pageSize / (g.wordBytes * g.nLanes) := by
  simp only [geometryOk, Bool.and_eq_true, decide_eq_true_eq, beq_iff_eq, and_assoc]

/-- The block's own geometry is 64 rows of 128 bytes. -/
theorem geometryOk_geometry : geometryOk Config.geometry = true := by decide

/-- A failed geometry check refuses every table and offset. -/
theorem build_eq_none_of_geometry {g : Config.Geometry} (h : geometryOk g = false) (base : Config.Lanes) (off : Nat) :
    build g base off = none := by
  simp [build, h]

/-- A failed offset check refuses every geometry and table. -/
theorem build_eq_none_of_offset {off : Nat} (h : fieldOffsetOk off = false) (g : Config.Geometry)
    (base : Config.Lanes) : build g base off = none := by
  simp [build, h]

/-- The block's own geometry is refused only for its offset. -/
theorem build_geometry {off : Nat} (h : fieldOffsetOk off = true) (base : Config.Lanes) :
    build Config.geometry base off = some { base := base, cksumOff := off } := by
  simp [build, h, geometryOk_geometry]

/-- The machine's own offset passes whatever number below 4096 it is twice of. -/
theorem paramsOk_params : paramsOk Config.params = true := by
  have hlt : Config.fieldHalf.val < 4096 := Config.fieldHalf.isLt
  refine (fieldOffsetOk_iff _).2 ⟨?_, ?_⟩
  · exact Nat.mul_mod_right 2 _
  · change 2 * Config.fieldHalf.val ≤ 8190
    omega

/-- Settles O49: each clause is one of the checks' own facts; a page of 8200 bytes leaves 8 bytes over. -/
theorem geometryChecked : Obligations.GeometryChecked := by
  refine ⟨?rows, ?badGeometry, ?badOffset, ?builds, geometryOk_geometry, by decide, paramsOk_params⟩
  case rows =>
    intro g hg
    exact ((geometryOk_iff g).1 hg).2
  case badGeometry =>
    intro g base off hg
    exact build_eq_none_of_geometry hg base off
  case badOffset =>
    intro g base off hoff
    have hbad : fieldOffsetOk off = false := by
      rw [← Bool.not_eq_true, fieldOffsetOk_iff]
      omega
    exact build_eq_none_of_offset hbad g base
  case builds =>
    intro base off heven hle
    exact build_geometry ((fieldOffsetOk_iff off).2 ⟨heven, hle⟩) base

end Sys2Proof.WellFormed
end

section
/-!
The invariant of a block and of the system (10_state R18 to R22): every micro-operation and every register
write keeps `BlockInv`, and every step keeps `SysInv`.
-/

namespace Sys2Proof.Safety

open Sys2Proof.Machine

/-! ### The invariant of a block, phase by phase -/

/-- The reduction never gives 0 (41_checksum_adapter R60). -/
theorem reduce16_ne_zero (v : Word) : reduce16 v ≠ 0#16 := by
  intro h
  have hv : (reduce16 v).toNat = 0 := by rw [h]; rfl
  simp only [reduce16, BitVec.toNat_ofNat, Config.modulus] at hv
  omega

/-- What `BlockInv` says of `IDX`, `CAUSE`, `SAVED_VALID`, `OP` and `COMB` in each phase. -/
def PhaseInv (b : Block) : Prop :=
  match b.phase with
  | .idle => b.idx = 0#11 ∧ b.cause = .none ∧ b.savedValid = false
  | .save | .zero | .salt => b.idx = 0#11 ∧ b.cause = .none ∧ b.savedValid = false ∧ b.op = .cksum
  | .init => b.idx = 0#11 ∧ b.cause = .none ∧ (b.savedValid = true ↔ b.op = .cksum)
  | .absorb => b.cause = .none ∧ (b.savedValid = true ↔ b.op = .cksum)
  | .final => b.idx.toNat < 64 ∧ b.cause = .none ∧ (b.savedValid = true ↔ b.op = .cksum)
  | .fold => b.idx.toNat < 32 ∧ b.cause = .none ∧ (b.savedValid = true ↔ b.op = .cksum)
  | .restore => b.idx = 0#11 ∧ b.cause = .none ∧ b.savedValid = true ∧ b.op = .cksum
  | .reduce => b.idx = 0#11 ∧ b.cause = .none ∧ b.savedValid = false ∧ b.op = .cksum ∧
      b.comb = b.digest ^^^ b.blkidx
  | .abort => b.cause = .busError ∧ (b.savedValid = true → b.op = .cksum)
  | .faulted => b.cause ≠ .none ∧ (b.savedValid = true → b.op = .cksum)

/-- The invariant as three parts: what a busy block works on, what a completed `CKSUM` leaves, and the facts of the
phase. -/
theorem blockInv_iff (pl : Platform) (b : Block) :
    BlockInv pl b ↔
      (b.phase.busy = true → pageBaseOk b.pageBase = true ∧ pageOrdinary pl b.pageBase = true ∧ b.done = false) ∧
        (b.done = true → b.op = .cksum → b.result ≠ 0#16) ∧ PhaseInv b := by
  constructor
  · rintro ⟨baseOk, ordinary, notDone, finalIdx, foldIdx, restIdx, causeNone, abortCause, adapterOp, savedOnly,
      savedThere, combined, resultNonzero⟩
    refine ⟨fun hb => ⟨baseOk hb, ordinary hb, notDone hb⟩, resultNonzero, ?_⟩
    clear baseOk ordinary notDone resultNonzero
    unfold PhaseInv
    cases hp : b.phase <;> simp_all [inWindow, adapterOnly, usesIdx]
    case init | absorb | final | fold => exact ⟨savedOnly, savedThere⟩
  · rintro ⟨busy, resultNonzero, phaseInv⟩
    refine ⟨fun hb => (busy hb).1, fun hb => (busy hb).2.1, fun hb => (busy hb).2.2, ?_, ?_, ?_, ?_, ?_, ?_, ?_, ?_,
      ?_, resultNonzero⟩
    all_goals
      clear busy resultNonzero
      unfold PhaseInv at phaseInv
      cases hp : b.phase <;> simp_all [inWindow, adapterOnly, usesIdx]

/-! ### Every operation on a block keeps its invariant -/

/-- A block that was just reset meets the invariant on every platform (10_state R25). -/
theorem blockInv_reset (pl : Platform) (n : Nat) : BlockInv pl (Block.reset n) := by
  simp [blockInv_iff, PhaseInv, Block.reset, Phase.busy]

/-- What the platform refuses is no part of the invariant. -/
theorem blockInv_setAdmission {pl : Platform} {b : Block} (r : List RefusedAccess) (h : BlockInv pl b) :
    BlockInv { pl with refused := r } b :=
  { h with }

/-- A fault entered while idle keeps the invariant. -/
theorem blockInv_raiseFault_idle {pl : Platform} {b : Block} {c : Cause} (h : BlockInv pl b) (idle : b.phase = .idle)
    (hc : c ≠ .none) : BlockInv pl (b.raiseFault c .faulted) := by
  rw [blockInv_iff] at h ⊢
  simp_all [PhaseInv, Phase.busy]

theorem blockInv_accept {pl : Platform} {b : Block} (i : Instr) (h : BlockInv pl b) (idle : b.phase = .idle)
    (ok : pageBaseOk b.pageBase = true) (ordinary : pageOrdinary pl b.pageBase = true) :
    BlockInv pl (b.accept i) := by
  rw [blockInv_iff] at h ⊢
  cases i <;> simp_all [PhaseInv, entryPhase]

theorem blockInv_operands {pl : Platform} {b : Block} (v w : Word) (h : BlockInv pl b) (idle : b.phase = .idle) :
    BlockInv pl { b with pageBase := v, blkidx := w } := by
  rw [blockInv_iff] at h ⊢
  simp_all [PhaseInv, Phase.busy]

theorem blockInv_regEffect {s : State} {b : Block} (h : BlockInv s.platform s.blk) (he : RegEffect s b) :
    BlockInv s.platform b := by
  cases he with
  | dropped => exact h
  | accepted i idle ok ordinary => exact blockInv_accept i h idle ok ordinary
  | badBase idle => exact blockInv_raiseFault_idle h idle (by decide)
  | illegal idle => exact blockInv_raiseFault_idle h idle (by decide)
  | pageBase v idle => exact blockInv_operands v s.blk.blkidx h idle
  | blkidx v idle => exact blockInv_operands s.blk.pageBase v h idle
  | whileBusy busy => exact { h with }

theorem blockInv_absorbed {pl : Platform} {b : Block} (x : Word) (h : BlockInv pl b) (hp : b.phase = .absorb) :
    BlockInv pl (b.absorbed x) := by
  rw [blockInv_iff] at h ⊢
  by_cases hi : b.idx.toNat = 2047
  · rw [absorbed_last x hi]
    simp_all [PhaseInv, Phase.busy]
  · rw [absorbed_more x hi]
    simp_all [PhaseInv, Phase.busy]

theorem blockInv_finalized {pl : Platform} {b : Block} (h : BlockInv pl b) (hp : b.phase = .final) :
    BlockInv pl b.finalized := by
  have hlt := h.finalIdx hp
  rw [blockInv_iff] at h ⊢
  by_cases hi : b.idx.toNat = 63
  · rw [finalized_last hi]
    simp_all [PhaseInv, Phase.busy]
  · have hnext : (b.idx.toNat + 1) % 2048 < 64 := by omega
    rw [finalized_more hi]
    simp_all [PhaseInv, Phase.busy]

theorem blockInv_folded {pl : Platform} {b : Block} (h : BlockInv pl b) (hp : b.phase = .fold) :
    BlockInv pl b.folded := by
  have hlt := h.foldIdx hp
  rw [blockInv_iff] at h ⊢
  by_cases hi : b.idx.toNat = 31
  · cases ho : b.op with
    | mix =>
      rw [folded_mix hi ho]
      simp_all [PhaseInv, Phase.busy]
    | cksum =>
      rw [folded_cksum hi ho]
      simp_all [PhaseInv, Phase.busy]
  · have hnext : (b.idx.toNat + 1) % 2048 < 32 := by omega
    rw [folded_more hi]
    simp_all [PhaseInv, Phase.busy]

/-- Every micro-operation keeps the invariant of its block (10_state R20). -/
theorem blockInv_microOp {p : Config.Params} {s t : State} (h : BlockInv s.platform s.blk)
    (he : microOp p s = .next t) : BlockInv s.platform t.blk := by
  rcases microOp_cases he with ⟨_, rfl⟩ | ⟨hp, rfl⟩ | ⟨hp, _, rfl⟩ | ⟨hp, rfl⟩ | ⟨hp, _, rfl⟩ | ⟨hp, rfl⟩ |
    ⟨hp, rfl⟩ | ⟨hp, _, rfl⟩ | ⟨hp, rfl⟩ | ⟨hp, rfl⟩ | ⟨hp, _, _, rfl⟩ | ⟨hp, rfl⟩ | ⟨hp | hp | hp, rfl⟩ | ⟨hp, rfl⟩
  -- The three phases that count `IDX` have their own lemmas; in every other the next state is one record update.
  on_goal 7 => exact blockInv_folded h hp
  on_goal 6 => exact blockInv_finalized h hp
  on_goal 5 => exact blockInv_absorbed _ h hp
  on_goal 1 => exact h
  -- The facts of the phase left, as `PhaseInv` states them, give those of the phase entered.
  all_goals
    clear he
    rw [blockInv_iff] at h ⊢
    simp_all [PhaseInv, Phase.busy, reduce16_ne_zero]

/-! ### Every step keeps the invariant of the system -/

/-- A micro-operation keeps memory canonical. -/
theorem memWf_microOp {p : Config.Params} {s t : State} (h : memWf s.mem = true) (he : microOp p s = .next t) :
    memWf t.mem = true := by
  rcases microOp_mem he with hm | ⟨hb, hm | hm⟩ <;> rw [hm]
  · exact h
  · exact memWf_writeHalf _ hb h
  · exact memWf_writeHalf _ hb h

/-- An operation on the addressed block keeps canonical memory and that block's invariant. -/
theorem blockOp_keeps {m : Option Move} {k : Nat} {f : State → Result} {s t : State} (hf : BlockOp m k f)
    (hmem : memWf s.mem = true) (hown : BlockInv s.platform s.blk) (h : f s = .next t) :
    memWf t.mem = true ∧ BlockInv s.platform t.blk := by
  obtain ⟨_, ⟨_, hb, hm⟩ | ⟨_, u, hu, hb, hm⟩ | ⟨he, hm⟩⟩ := blockOp_cases hf h
  · exact ⟨hm ▸ hmem, hb ▸ blockInv_reset _ _⟩
  · exact ⟨hm ▸ memWf_microOp hmem hu, hb ▸ blockInv_microOp hown hu⟩
  · exact ⟨hm ▸ hmem, blockInv_regEffect hown he⟩

/-- An operation on any block of the system keeps the invariant of all of them (60_exceptions R96). -/
theorem sysInv_onBlock {m : Option Move} {k : Nat} {f : State → Result} {s t : State} (hf : BlockOp m k f)
    (hs : SysInv s) (h : onBlock k f s = .next t) : SysInv t := by
  obtain ⟨hmem, hown, hothers⟩ := hs
  cases k with
  | zero =>
    obtain ⟨ho, hpl⟩ := (blockOp_cases hf h).1
    obtain ⟨hm, hb⟩ := blockOp_keeps hf hmem hown h
    exact ⟨hm, hpl ▸ hb, by rwa [ho, hpl]⟩
  | succ j =>
    obtain ⟨b, u, hj, hu, rfl⟩ := onBlock_succ h
    have hpl := (blockOp_cases hf hu).1.2
    obtain ⟨hm, hb⟩ := blockOp_keeps (s := s.setBlk b) hf hmem (hothers b (List.mem_of_getElem? hj)) hu
    refine ⟨hm, hpl ▸ hown, fun c hc => ?_⟩
    rw [hpl]
    rcases List.mem_or_eq_of_mem_set hc with hc | rfl
    · exact hothers c hc
    · exact hb

/-- Settles O50, by what a step can do: an operation on one block, a host access to memory, or a change of what the
platform admits. -/
theorem stepKeepsInvariant : Obligations.StepKeepsInvariant := by
  intro s t hs h
  have hs' : SysInv (afterTake s) := { hs with }
  rcases step_cases h with ⟨k, f, hf, hk⟩ | ⟨v, rfl⟩ | ⟨size, a, v, ha, rfl, _⟩ | ⟨r, rfl⟩ | ⟨_, rfl⟩
  · exact sysInv_onBlock hf hs' hk
  · exact { hs' with }
  · exact { hs' with memory := memWf_writeSized size v ha hs.memory }
  · exact
      { memory := hs.memory
        own := blockInv_setAdmission r hs.own
        others := fun b hb => blockInv_setAdmission r (hs.others b hb) }
  · exact hs

/-- Settles O51. -/
theorem resetMeetsInvariant : Obligations.ResetMeetsInvariant where
  memory := memWf_reset
  own := blockInv_reset _ _
  others := by simp [State.reset]

end Sys2Proof.Safety
end

section
/-!
Runs of a command with no other agent moving (10_state R20, log 3): the state after each micro-operation of the Lane
Mixer from `INIT` on, and a whole `MIX` and a whole `CKSUM` as state equations.
-/

namespace Sys2Proof.Safety

open Sys2Proof.Machine

/-! ### Addresses of an admitted page -/

theorem cksumOff_le : Config.cksumOff ≤ 8190 := by
  have hlt : Config.fieldHalf.val < 4096 := Config.fieldHalf.isLt
  unfold Config.cksumOff
  omega

theorem pageBase_le {a : Word} (h : pageBaseOk a = true) : a.toNat ≤ 0xFFFFE000 := by
  simp only [pageBaseOk, Bool.and_eq_true, decide_eq_true_eq] at h
  exact h.2

/-- The Checksum Field of a legal page lies in memory (20_memory R30, R31). -/
theorem fieldAddr_in_memory {b : Block} (h : pageBaseOk b.pageBase = true) :
    fieldAddr Config.params b + 2 ≤ Config.memBytes := by
  have hbase := pageBase_le h
  have hoff := cksumOff_le
  change b.pageBase.toNat + Config.cksumOff + 2 ≤ 4294967296
  omega

/-- Every word of a legal page lies in memory (20_memory R31). -/
theorem wordAddr_in_memory {b : Block} (h : pageBaseOk b.pageBase = true) : wordAddr b + 4 ≤ Config.memBytes := by
  have hbase := pageBase_le h
  have hidx := b.idx.isLt
  change b.pageBase.toNat + 4 * b.idx.toNat + 4 ≤ 4294967296
  omega

/-! ### The micro-operation of a phase (10_state R20) -/

section MicroOps

variable {p : Config.Params} {s : State}

theorem microOp_init (hp : s.blk.phase = .init) :
    microOp p s = .next (s.setBlk { s.blk with acc := p.base, phase := .absorb, idx := 0#11 }) := by
  simp [microOp, hp, opInit]

theorem microOp_absorb (hp : s.blk.phase = .absorb) : microOp p s = opAbsorb s := by
  simp [microOp, hp]

theorem microOp_final (hp : s.blk.phase = .final) : microOp p s = .next (s.setBlk s.blk.finalized) := by
  simp [microOp, hp, opFinal]

theorem microOp_fold (hp : s.blk.phase = .fold) : microOp p s = .next (s.setBlk s.blk.folded) := by
  simp [microOp, hp, opFold]

theorem microOp_save (hp : s.blk.phase = .save) : microOp p s = opSave p s := by
  simp [microOp, hp]

theorem microOp_zero (hp : s.blk.phase = .zero) : microOp p s = opZero p s := by
  simp [microOp, hp]

theorem microOp_restore (hp : s.blk.phase = .restore) : microOp p s = opRestore p s := by
  simp [microOp, hp]

theorem microOp_salt (hp : s.blk.phase = .salt) :
    microOp p s = .next (s.setBlk { s.blk with comb := s.blk.digest ^^^ s.blk.blkidx, phase := .reduce }) := by
  simp [microOp, hp, opSalt]

theorem microOp_reduce (hp : s.blk.phase = .reduce) :
    microOp p s = .next (s.setBlk { s.blk with result := reduce16 s.blk.comb, done := true, phase := .idle }) := by
  simp [microOp, hp, opReduce]

end MicroOps

/-! ### One micro-operation of the Lane Mixer -/

/-- `s` with the Lane Mixer's registers at these values. -/
def mixing (s : State) (ph : Phase) (n : Nat) (a : Config.Lanes) (d : Word) : State :=
  s.setBlk { s.blk with phase := ph, idx := BitVec.ofNat 11 n, acc := a, digest := d }

section MixerSteps

variable {s : State} (a : Config.Lanes) (d : Word) {n : Nat}

@[simp] theorem mixing_mem (ph : Phase) (n : Nat) : (mixing s ph n a d).mem = s.mem := rfl
@[simp] theorem mixing_saved (ph : Phase) (n : Nat) : (mixing s ph n a d).blk.saved = s.blk.saved := rfl
@[simp] theorem mixing_savedValid (ph : Phase) (n : Nat) :
    (mixing s ph n a d).blk.savedValid = s.blk.savedValid := rfl

/-- The addressed block works alone on a legal page whose words the platform admits. -/
structure MixerAlone (s : State) : Prop where
  turns : s.turns = []
  baseOk : pageBaseOk s.blk.pageBase = true
  admitted : WordsAdmitted s

theorem idx_toNat (h : n < 2048) : (BitVec.ofNat 11 n).toNat = n := by
  rw [BitVec.toNat_ofNat]
  omega

theorem idx_add_one (n : Nat) : BitVec.ofNat 11 n + 1#11 = BitVec.ofNat 11 (n + 1) :=
  (BitVec.ofNat_add n 1).symm

theorem step_mixing (h : MixerAlone s) {ph : Phase} (hb : ph.busy = true) :
    step (mixing s ph n a d) = microOp Config.params (mixing s ph n a d) :=
  step_busy h.turns hb

theorem step_init (h : MixerAlone s) (hp : s.blk.phase = .init) :
    step s = .next (mixing s .absorb 0 Config.base s.blk.digest) := by
  rw [step_busy h.turns (by rw [hp]; rfl), microOp_init hp]
  rfl

/-- An admitted `ABSORB` takes the next word of the page. -/
theorem step_absorb (h : MixerAlone s) (hn : n < 2048) :
    step (mixing s .absorb n a d) =
      .next ((mixing s .absorb n a d).setBlk ((mixing s .absorb n a d).blk.absorbed (pageWords s n))) := by
  have haddr : wordAddr (mixing s .absorb n a d).blk = s.blk.pageBase.toNat + 4 * n :=
    congrArg (s.blk.pageBase.toNat + 4 * ·) (idx_toNat hn)
  have hadm : memAdmits s.platform (wordAddr (mixing s .absorb n a d).blk) 4 = true :=
    haddr ▸ h.admitted n hn
  have hword : readWord s.mem (s.blk.pageBase.toNat + 4 * n) = pageWords s n := rfl
  rw [step_mixing a d h rfl, microOp_absorb rfl,
    opAbsorb_ok (wordAddr_in_memory (b := (mixing s .absorb n a d).blk) h.baseOk) hadm, haddr, mixing_mem, hword]

theorem step_absorb_more (h : MixerAlone s) (hn : n < 2047) :
    step (mixing s .absorb n a d) = .next (mixing s .absorb (n + 1) (mixLane a n (pageWords s n)) d) := by
  have hi : (mixing s .absorb n a d).blk.idx.toNat = n := idx_toNat (by omega)
  rw [step_absorb a d h (by omega), absorbed_more _ (by omega), hi]
  simp [mixing, idx_add_one]

theorem step_absorb_last (h : MixerAlone s) :
    step (mixing s .absorb 2047 a d) = .next (mixing s .final 0 (mixLane a 2047 (pageWords s 2047)) d) := by
  have hi : (mixing s .absorb 2047 a d).blk.idx.toNat = 2047 := idx_toNat (by omega)
  rw [step_absorb a d h (by omega), absorbed_last _ hi, hi]
  rfl

theorem step_final_more (h : MixerAlone s) (hn : n < 63) :
    step (mixing s .final n a d) = .next (mixing s .final (n + 1) (mixLane a n 0#32) d) := by
  have hi : (mixing s .final n a d).blk.idx.toNat = n := idx_toNat (by omega)
  rw [step_mixing a d h rfl, microOp_final rfl, finalized_more (by omega), hi]
  simp [mixing, idx_add_one]

theorem step_final_last (h : MixerAlone s) :
    step (mixing s .final 63 a d) = .next (mixing s .fold 0 (mixLane a 63 0#32) d) := by
  have hi : (mixing s .final 63 a d).blk.idx.toNat = 63 := idx_toNat (by omega)
  rw [step_mixing a d h rfl, microOp_final rfl, finalized_last hi, hi]
  rfl

/-- `DIGEST` after `n` steps of `FOLD`: what it was before the first, then the lanes folded so far (40_lane_mixer
R56). -/
def foldedDigest (a : Config.Lanes) (old : Word) (n : Nat) : Word := if n = 0 then old else foldLanes a n

theorem foldDigest_mixing (hn : n < 32) :
    foldDigest (mixing s .fold n a (foldedDigest a d n)).blk = foldLanes a (n + 1) := by
  have hi : (mixing s .fold n a (foldedDigest a d n)).blk.idx.toNat = n := idx_toNat (by omega)
  rw [foldDigest, hi, foldLanes]
  split
  · rename_i h0
    simp [h0, foldLanes, mixing]
  · rename_i h0
    simp [h0, foldedDigest, mixing]

theorem step_fold_more (h : MixerAlone s) (hn : n < 31) :
    step (mixing s .fold n a (foldedDigest a d n)) = .next (mixing s .fold (n + 1) a (foldedDigest a d (n + 1))) := by
  have hi : (mixing s .fold n a (foldedDigest a d n)).blk.idx.toNat = n := idx_toNat (by omega)
  rw [step_mixing _ _ h rfl, microOp_fold rfl, folded_more (by omega), foldDigest_mixing _ _ (by omega)]
  simp [mixing, idx_add_one, foldedDigest]

theorem step_fold_last_mix (h : MixerAlone s) (ho : s.blk.op = .mix) :
    step (mixing s .fold 31 a (foldedDigest a d 31)) =
      .next (s.setBlk { s.blk with
        acc := a, digest := foldLanes a 32, phase := .idle, idx := 0#11, done := true }) := by
  have ho' : (mixing s .fold 31 a (foldedDigest a d 31)).blk.op = .mix := ho
  have hd : foldDigest (mixing s .fold 31 a (foldedDigest a d 31)).blk = foldLanes a 32 :=
    foldDigest_mixing a d (by omega)
  rw [step_mixing _ _ h rfl, microOp_fold rfl, folded_mix (idx_toNat (by omega)) ho', hd]
  generalize foldLanes a 32 = x, foldedDigest a d 31 = y
  rfl

theorem step_fold_last_cksum (h : MixerAlone s) (ho : s.blk.op = .cksum) :
    step (mixing s .fold 31 a (foldedDigest a d 31)) = .next (mixing s .restore 0 a (foldLanes a 32)) := by
  have ho' : (mixing s .fold 31 a (foldedDigest a d 31)).blk.op = .cksum := ho
  have hd : foldDigest (mixing s .fold 31 a (foldedDigest a d 31)).blk = foldLanes a 32 :=
    foldDigest_mixing a d (by omega)
  rw [step_mixing _ _ h rfl, microOp_fold rfl, folded_cksum (idx_toNat (by omega)) ho', hd]
  generalize foldLanes a 32 = x, foldedDigest a d 31 = y
  rfl

end MixerSteps

/-! ### The Lane Mixer from `INIT` to the last `FOLD` -/

/-- The state `k` micro-operations after `INIT` in `s`, up to the last `FOLD` (40_lane_mixer R51, steps 1 to 4). -/
def mixerAt (s : State) (k : Nat) : State :=
  if k < 2048 then mixing s .absorb k (lanesAfterWords Config.base (pageWords s) k) s.blk.digest
  else if k < 2112 then
    mixing s .final (k - 2048) (lanesAfterFinal (lanesAfterWords Config.base (pageWords s) 2048) (k - 2048))
      s.blk.digest
  else
    mixing s .fold (k - 2112) (finalLanes Config.base (pageWords s))
      (foldedDigest (finalLanes Config.base (pageWords s)) s.blk.digest (k - 2112))

theorem mixerAt_absorb (s : State) {n : Nat} (hn : n < 2048) :
    mixerAt s n = mixing s .absorb n (lanesAfterWords Config.base (pageWords s) n) s.blk.digest :=
  if_pos hn

theorem mixerAt_final (s : State) {n : Nat} (hn : n < 64) :
    mixerAt s (2048 + n) =
      mixing s .final n (lanesAfterFinal (lanesAfterWords Config.base (pageWords s) 2048) n) s.blk.digest := by
  rw [mixerAt, if_neg (by omega), if_pos (by omega), Nat.add_sub_cancel_left]

theorem mixerAt_fold (s : State) (n : Nat) :
    mixerAt s (2112 + n) =
      mixing s .fold n (finalLanes Config.base (pageWords s))
        (foldedDigest (finalLanes Config.base (pageWords s)) s.blk.digest n) := by
  rw [mixerAt, if_neg (by omega), if_neg (by omega), Nat.add_sub_cancel_left]

/-- The Lane Mixer leaves memory and `SAVED` alone until its last `FOLD`. -/
theorem mixerAt_frame (s : State) (k : Nat) :
    (mixerAt s k).mem = s.mem ∧ (mixerAt s k).blk.saved = s.blk.saved ∧
      (mixerAt s k).blk.savedValid = s.blk.savedValid := by
  unfold mixerAt
  split_ifs <;> simp

/-- The Lane Mixer goes from each of its states to the next. -/
theorem step_mixerAt {s : State} (h : MixerAlone s) {k : Nat} (hk : k < 2143) :
    step (mixerAt s k) = .next (mixerAt s (k + 1)) := by
  rcases (by omega : k < 2047 ∨ k = 2047 ∨ (2048 ≤ k ∧ k < 2111) ∨ k = 2111 ∨ 2112 ≤ k) with
    hlt | rfl | ⟨hge, hlt⟩ | rfl | hge
  · rw [mixerAt_absorb s (by omega), mixerAt_absorb s (by omega), step_absorb_more _ _ h hlt, lanesAfterWords]
  · rw [mixerAt_absorb s (by omega), mixerAt_final s (n := 0) (by omega), step_absorb_last _ _ h, lanesAfterFinal]
    rfl
  · obtain ⟨n, rfl⟩ := Nat.exists_eq_add_of_le hge
    rw [Nat.add_assoc, mixerAt_final s (by omega), mixerAt_final s (by omega), step_final_more _ _ h (by omega),
      lanesAfterFinal]
  · rw [mixerAt_final s (n := 63) (by omega), mixerAt_fold s 0, step_final_last _ _ h]
    rfl
  · obtain ⟨n, rfl⟩ := Nat.exists_eq_add_of_le hge
    rw [Nat.add_assoc, mixerAt_fold, mixerAt_fold, step_fold_more _ _ h (by omega)]

/-- Every state of the Lane Mixer's run up to its last `FOLD`. -/
theorem runFor_mixerAt {s : State} (h : MixerAlone s) (hp : s.blk.phase = .init) {k : Nat} (hk : k ≤ 2143) :
    runFor (k + 1) s = .next (mixerAt s k) := by
  have hinit : step s = .next (mixerAt s 0) := by rw [step_init h hp, mixerAt_absorb s (by omega), lanesAfterWords]
  rw [runFor_succ hinit]
  exact runFor_loop fun i hi => step_mixerAt h (by omega)

/-- The Lane Mixer of a `MIX`, from `INIT` to `IDLE`. -/
theorem runFor_mixer_mix {s : State} (h : MixerAlone s) (hp : s.blk.phase = .init) (ho : s.blk.op = .mix) :
    runFor 2145 s = .next (s.setBlk { s.blk with
      acc := finalLanes Config.base (pageWords s)
      digest := mix Config.base (pageWords s)
      phase := .idle
      idx := 0#11
      done := true }) := by
  refine runFor_then (runFor_mixerAt h hp le_rfl) ?_
  rw [mixerAt_fold s 31, step_fold_last_mix _ _ h ho, mix]

/-- The Lane Mixer of a `CKSUM`, from `INIT` to `RESTORE`. -/
theorem runFor_mixer_cksum {s : State} (h : MixerAlone s) (hp : s.blk.phase = .init) (ho : s.blk.op = .cksum) :
    runFor 2145 s =
      .next (mixing s .restore 0 (finalLanes Config.base (pageWords s)) (mix Config.base (pageWords s))) := by
  refine runFor_then (runFor_mixerAt h hp le_rfl) ?_
  rw [mixerAt_fold s 31, step_fold_last_cksum _ _ h ho, mix]

/-! ### The micro-operations of the Page Checksum Adapter -/

/-- The addressed block works alone on a legal page whose Checksum Field the platform admits. -/
structure AdapterAlone (s : State) : Prop where
  turns : s.turns = []
  baseOk : pageBaseOk s.blk.pageBase = true
  admitted : FieldAdmitted Config.params s

section AdapterSteps

variable {s : State} (h : AdapterAlone s)
include h

theorem step_save (hp : s.blk.phase = .save) :
    step s = .next (s.setBlk
      { s.blk with saved := readHalf s.mem (fieldAddr Config.params s.blk), phase := .zero }) := by
  rw [step_busy h.turns (by rw [hp]; rfl), microOp_save hp, opSave_ok (fieldAddr_in_memory h.baseOk) h.admitted]

theorem step_zero (hp : s.blk.phase = .zero) :
    step s = .next ((s.setBlk { s.blk with savedValid := true, phase := .init }).setMem
      (writeHalf s.mem (fieldAddr Config.params s.blk) 0#16)) := by
  rw [step_busy h.turns (by rw [hp]; rfl), microOp_zero hp, opZero_ok (fieldAddr_in_memory h.baseOk) h.admitted]

theorem step_restore (hp : s.blk.phase = .restore) :
    step s = .next ((s.setBlk { s.blk with savedValid := false, phase := .salt }).setMem
      (writeHalf s.mem (fieldAddr Config.params s.blk) s.blk.saved)) := by
  rw [step_busy h.turns (by rw [hp]; rfl), microOp_restore hp,
    opRestore_ok (fieldAddr_in_memory h.baseOk) h.admitted]

theorem step_salt (hp : s.blk.phase = .salt) :
    step s = .next (s.setBlk { s.blk with comb := s.blk.digest ^^^ s.blk.blkidx, phase := .reduce }) := by
  rw [step_busy h.turns (by rw [hp]; rfl), microOp_salt hp]

theorem step_reduce (hp : s.blk.phase = .reduce) :
    step s = .next (s.setBlk { s.blk with result := reduce16 s.blk.comb, done := true, phase := .idle }) := by
  rw [step_busy h.turns (by rw [hp]; rfl), microOp_reduce hp]

/-- The last three micro-operations of a `CKSUM` (41_checksum_adapter R65 to R67). -/
theorem runFor_restore (hp : s.blk.phase = .restore) :
    runFor 3 s = .next ((s.setBlk { s.blk with
      savedValid := false
      comb := s.blk.digest ^^^ s.blk.blkidx
      result := reduce16 (s.blk.digest ^^^ s.blk.blkidx)
      done := true
      phase := .idle }).setMem (writeHalf s.mem (fieldAddr Config.params s.blk) s.blk.saved)) := by
  rw [runFor_succ (step_restore h hp), runFor_succ (step_salt ?salt rfl), runFor_succ (step_reduce ?reduce rfl), runFor]
  case salt | reduce => exact ⟨h.turns, h.baseOk, h.admitted⟩
  rfl

end AdapterSteps

/-! ### A whole command -/

/-- A command written to a ready block is accepted (42_host_access R75 case 3). -/
theorem exec_ready {s : State} (i : Instr) (h : Ready s) : exec i s = .next (s.setBlk (s.blk.accept i)) := by
  rw [exec_eq, guardedWrite_idle _ h.idle, acceptCommand, if_pos h.baseOk, if_pos h.ordinary]

/-- A `MIX` from issue to completion (40_lane_mixer R52 to R56). -/
theorem runFor_mix {s : State} (h : Ready s) (hw : WordsAdmitted s) (ht : s.turns = []) :
    runFor 2145 (s.setBlk (s.blk.accept .mix)) = .next (s.setBlk { s.blk with
      acc := finalLanes Config.base (pageWords s)
      digest := mix Config.base (pageWords s)
      phase := .idle
      idx := 0#11
      op := .mix
      done := true }) :=
  runFor_mixer_mix (s := s.setBlk (s.blk.accept .mix)) ⟨ht, h.baseOk, hw⟩ rfl rfl

/-- `s` after the first two micro-operations of a `CKSUM` issued in it (41_checksum_adapter R63, R64). -/
def zeroed (s : State) : State :=
  (s.setBlk { s.blk.accept .cksum with
    saved := readHalf s.mem (fieldAddr Config.params s.blk), savedValid := true, phase := .init }).setMem
    (writeHalf s.mem (fieldAddr Config.params s.blk) 0#16)

theorem zeroed_mem (s : State) : (zeroed s).mem = writeHalf s.mem (fieldAddr Config.params s.blk) 0#16 := rfl

/-- The page the Lane Mixer of a `CKSUM` reads is the page with its field zeroed (41_checksum_adapter R61). -/
theorem pageWords_zeroed (s : State) : pageWords (zeroed s) = wordsOf (zeroField Config.cksumOff (pageBytes s)) := by
  have hbytes : pageBytes (zeroed s) = zeroField Config.cksumOff (pageBytes s) := by
    funext o
    have hfield : fieldAddr Config.params s.blk = s.blk.pageBase.toNat + Config.cksumOff := rfl
    change readByte (writeHalf s.mem (fieldAddr Config.params s.blk) 0#16) (s.blk.pageBase.toNat + o) = _
    rw [readByte_writeHalf, hfield, zeroField]
    by_cases h0 : o = Config.cksumOff
    · simp [h0]
    · by_cases h1 : o = Config.cksumOff + 1
      · simp [h1, Nat.add_assoc]
      · simp [h0, h1, Nat.add_assoc, pageBytes]
  rw [pageWords, hbytes]

theorem mix_zeroed (s : State) :
    mix Config.base (pageWords (zeroed s)) = pageDigest Config.params (pageBytes s) := by
  rw [pageWords_zeroed]
  rfl

/-- `SAVE` and `ZERO` of a `CKSUM` just accepted. -/
theorem runFor_zeroed {s : State} (h : Ready s) (hf : FieldAdmitted Config.params s) (ht : s.turns = []) :
    runFor 2 (s.setBlk (s.blk.accept .cksum)) = .next (zeroed s) := by
  rw [runFor_succ (step_save ?save rfl), runFor_succ (step_zero ?zero rfl), runFor]
  case save | zero => exact ⟨ht, h.baseOk, hf⟩
  rfl

/-- A `CKSUM` from issue to completion (41_checksum_adapter R62 to R68). -/
theorem runFor_cksum {s : State} (h : Ready s) (hw : WordsAdmitted s) (hf : FieldAdmitted Config.params s)
    (ht : s.turns = []) (hm : memWf s.mem = true) :
    runFor 2150 (s.setBlk (s.blk.accept .cksum)) = .next (s.setBlk { s.blk with
        acc := finalLanes Config.base (wordsOf (zeroField Config.cksumOff (pageBytes s)))
        digest := pageDigest Config.params (pageBytes s)
        comb := pageDigest Config.params (pageBytes s) ^^^ s.blk.blkidx
        result := checksum Config.params (pageBytes s) s.blk.blkidx
        saved := readHalf s.mem (fieldAddr Config.params s.blk)
        savedValid := false
        phase := .idle
        idx := 0#11
        op := .cksum
        done := true }) := by
  have hmixer : runFor 2145 (zeroed s) = _ := runFor_mixer_cksum ⟨ht, h.baseOk, hw⟩ rfl rfl
  have hback := writeHalf_restore 0#16 (fieldAddr_in_memory h.baseOk) hm
  rw [mix_zeroed, pageWords_zeroed] at hmixer
  rw [runFor_add (m := 2) (n := 2148) (runFor_zeroed h hf ht), runFor_add (m := 2145) (n := 3) hmixer, checksum]
  generalize finalLanes Config.base (wordsOf (zeroField Config.cksumOff (pageBytes s))) = a
  generalize pageDigest Config.params (pageBytes s) = d
  rw [runFor_restore (s := mixing (zeroed s) .restore 0 a d) ⟨ht, h.baseOk, hf⟩ rfl]
  exact congrArg (fun m => Host.Outcome.next (State.setMem (State.setBlk s _) m)) hback

/-- Settles O13: after `ZERO` come the states of the Lane Mixer, which leave memory and `SAVED` alone, and then the
state in which `RESTORE` runs. -/
theorem zeroWindowSpan : Obligations.ZeroWindowSpan := by
  intro s h hw hf ht
  have hmixer : MixerAlone (zeroed s) := ⟨ht, h.baseOk, hw⟩
  refine ⟨_, exec_ready .cksum h, fun k hk2 hk => ?_⟩
  obtain ⟨j, rfl⟩ := Nat.exists_eq_add_of_le hk2
  rw [runFor_add (runFor_zeroed h hf ht)]
  suffices hframe : ∃ u, runFor j (zeroed s) = .next u ∧ u.mem = (zeroed s).mem ∧
      u.blk.saved = (zeroed s).blk.saved ∧ u.blk.savedValid = (zeroed s).blk.savedValid by
    obtain ⟨u, hu, hmem, hsaved, hvalid⟩ := hframe
    refine ⟨u, hu, ?_, hvalid, hsaved, fun a h0 h1 => ?_⟩
    · rw [hmem, zeroed_mem, readHalf_writeHalf_same]
    · rw [hmem, zeroed_mem, readByte_writeHalf_other _ _ h0 h1]
  rcases (by omega : j = 0 ∨ j = 2145 ∨ 1 ≤ j ∧ j ≤ 2144) with rfl | rfl | ⟨h1, hj⟩
  · exact ⟨zeroed s, rfl, rfl, rfl, rfl⟩
  · exact ⟨_, runFor_mixer_cksum hmixer rfl rfl, rfl, rfl, rfl⟩
  · obtain ⟨n, rfl⟩ := Nat.exists_eq_add_of_le' h1
    exact ⟨_, runFor_mixerAt hmixer rfl (by omega), mixerAt_frame _ _⟩

/-- States that agree on `PAGE_BASE` and memory hold the same page. -/
theorem pageBytes_congr {s s' : State} (hb : s'.blk.pageBase = s.blk.pageBase) (hm : s'.mem = s.mem) :
    pageBytes s' = pageBytes s := by
  funext o
  rw [pageBytes, pageBytes, hb, hm]

/-- Settles O14: the outputs are functions of the page and the block index, and memory is as at issue. -/
theorem noResultCarriedOver : Obligations.NoResultCarriedOver := by
  intro i s s' h hw hf ht h' hw' hf' ht' hbase hidx hmem hwf
  have hpage := pageBytes_congr hbase hmem
  cases i with
  | mix =>
    refine ⟨_, _, _, _, exec_ready .mix h, runFor_mix h hw ht, exec_ready .mix h', runFor_mix h' hw' ht', ?_, hmem,
      nofun⟩
    change mix Config.base (pageWords s') = mix Config.base (pageWords s)
    rw [pageWords, pageWords, hpage]
  | cksum =>
    refine ⟨_, _, _, _, exec_ready .cksum h, runFor_cksum h hw hf ht hwf, exec_ready .cksum h',
      runFor_cksum h' hw' hf' ht' (hmem ▸ hwf), ?_, hmem, fun _ => ?_⟩
    · change pageDigest Config.params (pageBytes s') = pageDigest Config.params (pageBytes s)
      rw [hpage]
    · change checksum Config.params (pageBytes s') s'.blk.blkidx = checksum Config.params (pageBytes s) s.blk.blkidx
      rw [hpage, hidx]

end Sys2Proof.Safety
end

section
/-!
Which registers a step of the system may change, and in which phase (10_state R12, R14 to R22): a register write and a
micro-operation each change a block only as `WrittenByOwner` and `FaultsKept` allow.
-/

namespace Sys2Proof.Safety

open Sys2Proof.Machine

/-- Whatever register writes and micro-operations do to block 0, every step but its reset does (10_state R20). -/
theorem step_blk_rel {R : Block → Block → Prop} (hreg : ∀ {s b}, RegEffect s b → R s.blk b)
    (hmicro : ∀ {s t}, microOp Config.params s = .next t → R s.blk t.blk) {s t : State}
    (hne : s.turns.head? ≠ some (.reset 0)) (h : step s = .next t) : R s.blk t.blk := by
  rcases step_blk_cases h with ⟨hr, _⟩ | ⟨_, u, hu, hb⟩ | he
  · exact absurd hr hne
  · exact hb ▸ hmicro (s := afterTake s) hu
  · exact hreg (s := afterTake s) he

/-! ### Each register has its own writers -/

/-- From `b` to `c` each register changed only where its own writer runs in the phase of `b`. -/
structure WrittenByOwner (b c : Block) : Prop where
  acc : c.acc ≠ b.acc → b.phase = .init ∨ b.phase = .absorb ∨ b.phase = .final
  operands : c.pageBase ≠ b.pageBase ∨ c.blkidx ≠ b.blkidx ∨ c.op ≠ b.op → b.phase = .idle
  digest : c.digest ≠ b.digest → b.phase = .fold
  result : c.result ≠ b.result → b.phase = .reduce
  saved : c.saved ≠ b.saved → b.phase = .save
  savedValid : c.savedValid ≠ b.savedValid → b.phase = .zero ∨ b.phase = .restore ∨ b.phase = .abort
  comb : c.comb ≠ b.comb → b.phase = .salt
  doneCleared : b.done = true → c.done = false → b.phase = .idle
  doneSet : b.done = false → c.done = true →
    b.phase = .fold ∧ b.op = .mix ∧ b.idx = 31#11 ∨ b.phase = .reduce

theorem WrittenByOwner.refl {b : Block} : WrittenByOwner b b := by
  constructor <;> simp +contextual

theorem writtenByOwner_regEffect {s : State} {b : Block} (h : RegEffect s b) : WrittenByOwner s.blk b := by
  cases h with
  | dropped => exact .refl
  | accepted i idle _ _ => constructor <;> simp [idle, Block.accept]
  | badBase idle | illegal idle | pageBase v idle | blkidx v idle => constructor <;> simp [idle]
  | whileBusy busy => constructor <;> simp +contextual

theorem writtenByOwner_absorbed {b : Block} (x : Word) (hp : b.phase = .absorb) : WrittenByOwner b (b.absorbed x) := by
  by_cases hi : b.idx.toNat = 2047
  · rw [absorbed_last x hi]
    constructor <;> simp [hp]
  · rw [absorbed_more x hi]
    constructor <;> simp [hp]

theorem writtenByOwner_finalized {b : Block} (hp : b.phase = .final) : WrittenByOwner b b.finalized := by
  by_cases hi : b.idx.toNat = 63
  · rw [finalized_last hi]
    constructor <;> simp [hp]
  · rw [finalized_more hi]
    constructor <;> simp [hp]

/-- `FOLD` sets `DONE` only at lane 31 of a `MIX` (40_lane_mixer R56). -/
theorem writtenByOwner_folded {b : Block} (hp : b.phase = .fold) : WrittenByOwner b b.folded := by
  by_cases hi : b.idx.toNat = 31
  · have hidx : b.idx = 31#11 := BitVec.eq_of_toNat_eq hi
    cases ho : b.op with
    | mix =>
      rw [folded_mix hi ho]
      constructor <;> simp [hp, ho, hidx]
    | cksum =>
      rw [folded_cksum hi ho]
      constructor <;> simp +contextual [hp]
  · rw [folded_more hi]
    constructor <;> simp +contextual [hp]

theorem writtenByOwner_microOp {p : Config.Params} {s t : State} (h : microOp p s = .next t) :
    WrittenByOwner s.blk t.blk := by
  rcases microOp_cases h with ⟨_, rfl⟩ | ⟨hp, rfl⟩ | ⟨hp, _, rfl⟩ | ⟨hp, rfl⟩ | ⟨hp, _, rfl⟩ | ⟨hp, rfl⟩ |
    ⟨hp, rfl⟩ | ⟨hp, _, rfl⟩ | ⟨hp, rfl⟩ | ⟨hp, rfl⟩ | ⟨hp, _, _, rfl⟩ | ⟨hp, rfl⟩ | ⟨_, rfl⟩ | ⟨_, rfl⟩
  -- The three phases that count `IDX` have their own lemmas; in every other the next state is one record update.
  on_goal 7 => exact writtenByOwner_folded hp
  on_goal 6 => exact writtenByOwner_finalized hp
  on_goal 5 => exact writtenByOwner_absorbed _ hp
  on_goal 1 => exact .refl
  all_goals constructor <;> simp +contextual [*]

/-- Settles O52: register writes and micro-operations change a register only where its own writer runs. -/
theorem onlyWriters : Obligations.OnlyWriters := by
  intro s t hne h
  obtain ⟨hacc, hoperands, hdigest, hresult, hsaved, hvalid, hcomb, hcleared, hset⟩ :=
    step_blk_rel writtenByOwner_regEffect writtenByOwner_microOp hne h
  exact ⟨hacc, hoperands, hdigest, hresult, hsaved, hvalid, hcomb, hcleared, hset⟩

/-! ### What only a reset clears -/

/-- From `b` to `c` no error flag was cleared, no cause replaced and `FAULTED` not left (10_state R22). -/
structure FaultsKept (b c : Block) : Prop where
  wrerr : b.wrerr = true → c.wrerr = true
  cause : b.cause ≠ .none → c.cause = b.cause
  faulted : b.phase = .faulted → c.phase = .faulted

theorem faultsKept_regEffect {s : State} {b : Block} (h : RegEffect s b) : FaultsKept s.blk b := by
  cases h with
  | dropped => exact ⟨id, fun _ => rfl, id⟩
  | accepted i idle _ _ => exact ⟨id, fun _ => rfl, by simp [idle]⟩
  | badBase idle | illegal idle => exact ⟨id, fun hc => if_neg hc, by simp [idle]⟩
  | pageBase v idle | blkidx v idle => exact ⟨id, fun _ => rfl, id⟩
  | whileBusy busy => exact ⟨fun _ => rfl, fun _ => rfl, id⟩

/-- The sequencer's three counting phases leave the error flags alone. -/
theorem absorbed_wrerr_cause (b : Block) (x : Word) :
    (b.absorbed x).wrerr = b.wrerr ∧ (b.absorbed x).cause = b.cause := by
  unfold Block.absorbed
  split <;> exact ⟨rfl, rfl⟩

theorem finalized_wrerr_cause (b : Block) : b.finalized.wrerr = b.wrerr ∧ b.finalized.cause = b.cause := by
  unfold Block.finalized
  split <;> exact ⟨rfl, rfl⟩

theorem folded_wrerr_cause (b : Block) : b.folded.wrerr = b.wrerr ∧ b.folded.cause = b.cause := by
  unfold Block.folded
  split
  · split <;> exact ⟨rfl, rfl⟩
  · exact ⟨rfl, rfl⟩

theorem faultsKept_microOp {p : Config.Params} {s t : State} (h : microOp p s = .next t) :
    FaultsKept s.blk t.blk := by
  rcases microOp_cases h with ⟨_, rfl⟩ | ⟨hp, rfl⟩ | ⟨hp, _, rfl⟩ | ⟨hp, rfl⟩ | ⟨hp, _, rfl⟩ | ⟨hp, rfl⟩ |
    ⟨hp, rfl⟩ | ⟨hp, _, rfl⟩ | ⟨hp, rfl⟩ | ⟨hp, rfl⟩ | ⟨hp, _, _, rfl⟩ | ⟨hp, rfl⟩ | ⟨hp | hp | hp, rfl⟩ | ⟨hp, rfl⟩
  all_goals constructor
  all_goals simp +contextual [*, absorbed_wrerr_cause, finalized_wrerr_cause, folded_wrerr_cause]

/-- Settles O55: neither a register write nor a micro-operation clears an error flag or leaves `FAULTED`. -/
theorem onlyResetClears : Obligations.OnlyResetClears := by
  intro s t hne h
  obtain ⟨hwrerr, hcause, hfaulted⟩ := step_blk_rel faultsKept_regEffect faultsKept_microOp hne h
  exact ⟨hwrerr, hcause, hfaulted⟩

end Sys2Proof.Safety
end

section
/-!
`STATUS` (10_state R21) field by field.
-/

namespace Sys2Proof.Safety

open Sys2Proof.Machine

/-- `STATUS` as the concatenation of its fields, its width written as the sum of theirs: the form the library's rules
for `++` match. -/
abbrev statusConcat (b : Block) : BitVec (19 + 1 + 4 + 4 + 1 + 1 + 1 + 1) :=
  0#19 ++ BitVec.ofBool (opBit b.op) ++ b.phase.code ++ b.cause.code ++ BitVec.ofBool b.wrerr ++
    BitVec.ofBool b.phase.isFaulted ++ BitVec.ofBool b.done ++ BitVec.ofBool b.phase.busy

theorem status_getLsbD (b : Block) (i : Nat) : (status b).getLsbD i = (statusConcat b).getLsbD i := rfl

theorem status_extractLsb' (b : Block) (start len : Nat) :
    (status b).extractLsb' start len = (statusConcat b).extractLsb' start len := rfl

theorem status_busy (b : Block) : (status b).getLsbD 0 = b.phase.busy := by
  simp only [status_getLsbD, BitVec.getLsbD_append]
  simp

theorem status_done (b : Block) : (status b).getLsbD 1 = b.done := by
  simp only [status_getLsbD, BitVec.getLsbD_append]
  simp

theorem status_fault (b : Block) : (status b).getLsbD 2 = b.phase.isFaulted := by
  simp only [status_getLsbD, BitVec.getLsbD_append]
  simp

theorem status_wrerr (b : Block) : (status b).getLsbD 3 = b.wrerr := by
  simp only [status_getLsbD, BitVec.getLsbD_append]
  simp

theorem status_op (b : Block) : (status b).getLsbD 12 = opBit b.op := by
  simp only [status_getLsbD, BitVec.getLsbD_append]
  simp

theorem status_cause (b : Block) : (status b).extractLsb' 4 4 = b.cause.code := by
  simp (disch := decide) only [status_extractLsb', BitVec.extractLsb'_append_eq_of_le,
    BitVec.extractLsb'_append_eq_of_add_le]
  simp

theorem status_phase (b : Block) : (status b).extractLsb' 8 4 = b.phase.code := by
  simp (disch := decide) only [status_extractLsb', BitVec.extractLsb'_append_eq_of_le,
    BitVec.extractLsb'_append_eq_of_add_le]
  simp

theorem status_rsvd (b : Block) : (status b).extractLsb' 13 19 = 0#19 := by
  simp (disch := decide) only [status_extractLsb', BitVec.extractLsb'_append_eq_of_le]
  simp

theorem busy_eq (ph : Phase) : ph.busy = (ph != .idle && ph != .faulted) := by
  cases ph <;> rfl

theorem opBit_eq (i : Instr) : opBit i = (i == .cksum) := by
  cases i <;> rfl

/-- `BUSY` and `FAULT` are never both 1 (10_state R21). -/
theorem busy_and_isFaulted (ph : Phase) : (ph.busy && ph.isFaulted) = false := by
  cases ph <;> rfl

/-- Settles O19, field by field; `BUSY` excludes `DONE` by the invariant. -/
theorem statusFields : Obligations.StatusFields := by
  intro pl b
  have hcauses : ∀ x ∈ [(Cause.none, 0#4), (Cause.illegalCmd, 1#4), (Cause.badBase, 2#4), (Cause.busError, 3#4)],
      x.1.code = x.2 := by decide
  have hphases : ∀ x ∈ [(Phase.idle, 0#4), (Phase.save, 1#4), (Phase.zero, 2#4), (Phase.init, 3#4),
      (Phase.absorb, 4#4), (Phase.final, 5#4), (Phase.fold, 6#4), (Phase.restore, 7#4), (Phase.salt, 8#4),
      (Phase.reduce, 9#4), (Phase.abort, 10#4), (Phase.faulted, 15#4)], x.1.code = x.2 := by decide
  rw [status_busy, status_done, status_fault, status_wrerr, status_cause, status_phase, status_op, status_rsvd]
  refine ⟨busy_eq _, rfl, rfl, rfl, rfl, fun x hx he => ?_, rfl, fun x hx he => ?_, opBit_eq _, rfl,
    busy_and_isFaulted _, fun hinv => ?_⟩
  · rw [he, hcauses x hx]
  · rw [he, hphases x hx]
  · cases hb : b.phase.busy with
    | false => rfl
    | true => rw [hinv.notDone hb, Bool.and_false]

end Sys2Proof.Safety
end

section
/-!
The state reset leaves (10_state R25), and whose turn it is when no move is left (70_reset_and_hazards R108).
-/

namespace Sys2Proof.Safety

open Sys2Proof.Machine

/-! ### Reset -/

/-- Every register of a block that was just reset reads 0 (10_state R23, R25). -/
theorem regValue_reset (n : Nat) (r : Reg) : regValue (Block.reset n) r = 0#32 := by
  cases r with
  | status =>
    have hf : Phase.idle.isFaulted = false := rfl
    simp [regValue, status, Block.reset, opBit, Phase.code, Cause.code, Phase.busy, hf]
  | saved => simp [regValue, savedReg, Block.reset]
  | cmd | pageBase | blkidx | digest | result | reserved => rfl

/-- Settles O58. -/
theorem resetState : Obligations.ResetState :=
  ⟨rfl, rfl, rfl, rfl, rfl, rfl, regValue_reset 0⟩

theorem step_reset {s : State} {rest : List Move} (h : s.turns = .reset 0 :: rest) :
    step s = .next { s with turns := rest, blk := Block.reset s.freeCtr, freeCtr := s.freeCtr + 1 } := by
  simp [step, takeTurn, h, doMove, resetBlock]

/-- Settles O57: the reset move leaves the block of 10_state R25 and the rest of the system. -/
theorem resetMove : Obligations.ResetMove := by
  intro s rest h
  exact ⟨_, step_reset h, rfl, rfl, rfl, rfl, rfl, rfl, rfl, rfl, rfl, rfl, rfl, rfl, regValue_reset _ .status, rfl,
    rfl, rfl, rfl, rfl⟩

/-! ### With no move left -/

theorem step_firstBusy_some {s : State} {k : Nat} (ht : s.turns = []) (hk : firstBusy s = some k) :
    step s = onBlock k (microOp Config.params) s := by
  simp [step, takeTurn, ht, hk]

theorem step_firstBusy_none {s : State} (ht : s.turns = []) (hk : firstBusy s = none) : step s = .next s := by
  simp [step, takeTurn, ht, hk]

/-- With block 0 not busy, the first busy one of the others moves. -/
theorem firstBusy_other {s : State} {j : Nat} {b : Block} (hidle : s.blk.phase.busy = false)
    (hj : s.others[j]? = some b) (hb : b.phase.busy = true)
    (hfirst : ∀ i < j, ∀ c, s.others[i]? = some c → c.phase.busy = false) : firstBusy s = some (j + 1) := by
  have hfind : s.others.findIdx? (fun c => c.phase.busy) = some j := by
    obtain ⟨hlt, rfl⟩ := List.getElem?_eq_some_iff.1 hj
    rw [List.findIdx?_eq_some_iff_getElem]
    refine ⟨hlt, hb, fun i hi => ?_⟩
    rw [hfirst i hi _ (List.getElem?_eq_getElem (hi.trans hlt))]
    exact Bool.false_ne_true
  simp [firstBusy, hidle, hfind]

theorem firstBusy_none {s : State} (hidle : s.blk.phase.busy = false)
    (hothers : ∀ b ∈ s.others, b.phase.busy = false) : firstBusy s = none := by
  have hfind : s.others.findIdx? (fun c => c.phase.busy) = none := List.findIdx?_eq_none_iff.2 hothers
  simp [firstBusy, hidle, hfind]

/-- Settles O24: `firstBusy` names block 0, the first busy one of the others, or no block. -/
theorem blockRunsWhenNoMoveIsLeft : Obligations.BlockRunsWhenNoMoveIsLeft := by
  intro s ht
  refine ⟨step_busy ht, fun hidle j b hj hb hfirst u hu => ?_, fun hidle hothers => ?_⟩
  · rw [step_firstBusy_some ht (firstBusy_other hidle hj hb hfirst)]
    simp [onBlock, hj, hu]
  · exact step_firstBusy_none ht (firstBusy_none hidle hothers)

end Sys2Proof.Safety
end

section
/-!
Independence of the lanes (10_state R12, 40_lane_mixer R57): a lane after any part of the Lane Mixer depends on its own
constant and on the words of its own column.
-/

namespace Sys2Proof.Machine

/-- A mixing step with the same input on the lane of its index keeps agreement at lane `c`; the input matters only if
that lane is `c`. -/
theorem getLane_mixLane_congr {a a' : Config.Lanes} {c : Fin 32} {n : Nat} {x x' : Word}
    (ha : getLane a c = getLane a' c) (hx : c = laneOf n → x = x') :
    getLane (mixLane a n x) c = getLane (mixLane a' n x') c := by
  rw [getLane_mixLane, getLane_mixLane, ha]
  split
  · rename_i hc
    rw [hx hc]
  · rfl

/-- A word lies in the column of its lane (20_memory R28). -/
theorem eq_row_add_of_laneOf {c : Fin 32} {n : Nat} (h : c = laneOf n) : n = 32 * (n / 32) + c.val := by
  have hc : c.val = n % 32 := congrArg Fin.val h
  omega

theorem getLane_lanesAfterWords_congr {a a' : Config.Lanes} {W W' : Nat → Word} {c : Fin 32}
    (ha : getLane a c = getLane a' c) (hW : ∀ r < 64, W (32 * r + c.val) = W' (32 * r + c.val)) {n : Nat}
    (hn : n ≤ 2048) : getLane (lanesAfterWords a W n) c = getLane (lanesAfterWords a' W' n) c := by
  induction n with
  | zero => exact ha
  | succ n ih =>
    refine getLane_mixLane_congr (ih (by omega)) fun hc => ?_
    rw [eq_row_add_of_laneOf hc]
    exact hW (n / 32) (by omega)

theorem getLane_lanesAfterFinal_congr {a a' : Config.Lanes} {c : Fin 32} (ha : getLane a c = getLane a' c) (n : Nat) :
    getLane (lanesAfterFinal a n) c = getLane (lanesAfterFinal a' n) c := by
  induction n with
  | zero => exact ha
  | succ n ih => exact getLane_mixLane_congr ih fun _ => rfl

/-- Settles O42, by induction over the words and over the zero rounds. -/
theorem lanesIndependent : Obligations.LanesIndependent := by
  intro base base' W W' c ha hW
  exact getLane_lanesAfterFinal_congr (getLane_lanesAfterWords_congr ha hW le_rfl) _

end Sys2Proof.Machine
end

section
/-!
The bytes of words and fields (20_memory R28 to R30): a word is its two halves, a half is its two bytes, and the
Checksum Field is one half of one word of the page.
-/

namespace Sys2Proof.Machine

/-! ### Words, halves and bytes -/

/-- A word is its low half below its high half (20_memory R29). -/
theorem wordOfBytes_eq_append (b0 b1 b2 b3 : Byte) :
    wordOfBytes b0 b1 b2 b3 = halfOfBytes b2 b3 ++ halfOfBytes b0 b1 :=
  BitVec.append_assoc (x₁ := b3 ++ b2) (x₂ := b1) (x₃ := b0)

/-- Bits 15:0 of a word come from the two bytes at the lower addresses. -/
@[simp] theorem wordOfBytes_low (b0 b1 b2 b3 : Byte) :
    (wordOfBytes b0 b1 b2 b3).extractLsb' 0 16 = halfOfBytes b0 b1 := by
  rw [wordOfBytes_eq_append]
  exact BitVec.extractLsb'_append_eq_right

/-- Bits 31:16 of a word come from the two bytes at the higher addresses. -/
@[simp] theorem wordOfBytes_high (b0 b1 b2 b3 : Byte) :
    (wordOfBytes b0 b1 b2 b3).extractLsb' 16 16 = halfOfBytes b2 b3 := by
  rw [wordOfBytes_eq_append]
  exact BitVec.extractLsb'_append_eq_left

/-- The number of two bit vectors put together. -/
theorem toNat_append_eq_add {n m : Nat} (x : BitVec n) (y : BitVec m) :
    (x ++ y).toNat = y.toNat + 2 ^ m * x.toNat := by
  rw [BitVec.toNat_append, ← Nat.shiftLeft_add_eq_or_of_lt y.isLt, Nat.shiftLeft_eq]
  ring

theorem halfOfBytes_toNat (b0 b1 : Byte) : (halfOfBytes b0 b1).toNat = b0.toNat + 2 ^ 8 * b1.toNat :=
  toNat_append_eq_add b1 b0

theorem wordOfBytes_toNat (b0 b1 b2 b3 : Byte) :
    (wordOfBytes b0 b1 b2 b3).toNat =
      b0.toNat + 2 ^ 8 * b1.toNat + 2 ^ 16 * b2.toNat + 2 ^ 24 * b3.toNat := by
  rw [wordOfBytes_eq_append, toNat_append_eq_add, halfOfBytes_toNat, halfOfBytes_toNat]
  ring

/-- Settles O46: a word and a half of memory are made of its bytes. -/
theorem littleEndian : Obligations.LittleEndian :=
  fun _ _ => ⟨wordOfBytes_toNat _ _ _ _, halfOfBytes_toNat _ _⟩

/-! ### The Checksum Field in the page (20_memory R30) -/

/-- Outside the two bytes of the field, the page with its field zeroed is the page. -/
theorem zeroField_other {off o : Nat} (page : Nat → Byte) (h0 : o ≠ off) (h1 : o ≠ off + 1) :
    zeroField off page o = page o := by
  simp [zeroField, h0, h1]

@[simp] theorem zeroField_low (off : Nat) (page : Nat → Byte) : zeroField off page off = 0#8 := by
  simp [zeroField]

@[simp] theorem zeroField_high (off : Nat) (page : Nat → Byte) : zeroField off page (off + 1) = 0#8 := by
  simp [zeroField]

/-- Two bytes of the page that are not the field keep their value. -/
theorem halfOfBytes_zeroField_other {off o : Nat} (page : Nat → Byte) (h : o + 2 ≤ off ∨ off + 2 ≤ o) :
    halfOfBytes (zeroField off page o) (zeroField off page (o + 1)) = halfOfBytes (page o) (page (o + 1)) := by
  rw [zeroField_other page (by omega) (by omega), zeroField_other page (by omega) (by omega)]

/-- The two bytes of the field are zero. -/
theorem halfOfBytes_zeroField_same (off : Nat) (page : Nat → Byte) :
    halfOfBytes (zeroField off page off) (zeroField off page (off + 1)) = 0#16 := by
  rw [zeroField_low, zeroField_high]
  rfl

/-- Bits 15:0 of a page word are the half at its offset. -/
theorem wordsOf_low (page : Nat → Byte) (w : Nat) :
    (wordsOf page w).extractLsb' 0 16 = halfOfBytes (page (4 * w)) (page (4 * w + 1)) :=
  wordOfBytes_low _ _ _ _

/-- Bits 31:16 of a page word are the half two bytes above its offset. -/
theorem wordsOf_high (page : Nat → Byte) (w : Nat) :
    (wordsOf page w).extractLsb' 16 16 = halfOfBytes (page (4 * w + 2)) (page (4 * w + 2 + 1)) :=
  wordOfBytes_high _ _ _ _

/-- Zeroing the field changes no word it does not touch. -/
theorem wordsOf_zeroField_other {off w : Nat} (page : Nat → Byte) (h : 4 * w + 4 ≤ off ∨ off + 2 ≤ 4 * w) :
    wordsOf (zeroField off page) w = wordsOf page w := by
  have hlow := halfOfBytes_zeroField_other (off := off) (o := 4 * w) page (by omega)
  have hhigh := halfOfBytes_zeroField_other (off := off) (o := 4 * w + 2) page (by omega)
  rw [wordsOf, wordsOf, wordOfBytes_eq_append, wordOfBytes_eq_append, hlow, hhigh]

/-- Settles O48: an even offset is that of the low or of the high half of word `off / 4`. -/
theorem fieldInOneWord : Obligations.FieldInOneWord := by
  intro page off heven
  refine ⟨fun w hw => wordsOf_zeroField_other page (by omega), fun hlow => ?_, fun hhigh => ?_⟩
  · have hoff : 4 * (off / 4) = off := by omega
    simp only [wordsOf_low, wordsOf_high, hoff]
    exact ⟨halfOfBytes_zeroField_same off page, halfOfBytes_zeroField_other page (by omega)⟩
  · have hoff : 4 * (off / 4) + 2 = off := by omega
    simp only [wordsOf_low, wordsOf_high, hoff]
    exact ⟨halfOfBytes_zeroField_same off page, halfOfBytes_zeroField_other page (by omega)⟩

end Sys2Proof.Machine

namespace Sys2Proof.Safety

open Sys2Proof.Machine

/-- The page words are the words in memory from `PAGE_BASE` (20_memory R28, R29). -/
theorem pageWords_eq_readWord (s : State) (w : Nat) :
    pageWords s w = readWord s.mem (s.blk.pageBase.toNat + 4 * w) := rfl

/-- Settles O47: the grid is division with remainder by 32 and by 4. -/
theorem wordGrid : Obligations.WordGrid := by
  refine ⟨fun r c hc => ?_, pageWords_eq_readWord, fun o ho => ⟨by omega, fun w => by omega⟩⟩
  have hlane : (laneOf (32 * r + c)).val = (32 * r + c) % 32 := rfl
  omega

end Sys2Proof.Safety
end

section
/-!
Host accesses to ordinary memory (42_host_access R80): a write is what the next read of the same bytes returns
(20_memory R34). And the refusal of a command on a page that is not ordinary memory (20_memory R38).
-/

namespace Sys2Proof.Machine

/-- A word in memory is the half at its address below the half two bytes above. -/
theorem readWord_eq_append (m : Memory) (a : Nat) : readWord m a = readHalf m (a + 2) ++ readHalf m a :=
  wordOfBytes_eq_append _ _ _ _

/-- A field write leaves the halves that do not overlap it. -/
theorem readHalf_writeHalf_other (m : Memory) {a b : Nat} (v : Half) (h : b + 2 ≤ a ∨ a + 2 ≤ b) :
    readHalf (writeHalf m a v) b = readHalf m b := by
  rw [readHalf, readByte_writeHalf_other m v (by omega) (by omega),
    readByte_writeHalf_other m v (by omega) (by omega), readHalf]

/-- The four bytes read back as the word written. -/
@[simp] theorem readWord_writeWord_same (m : Memory) (a : Nat) (v : Word) : readWord (writeWord m a v) a = v := by
  rw [readWord_eq_append, writeWord, readHalf_writeHalf_same, readHalf_writeHalf_other _ _ (by omega),
    readHalf_writeHalf_same]
  exact BitVec.extractLsb'_append_extractLsb'

theorem readByte_writeWord_other (m : Memory) {a b : Nat} (v : Word) (h : b < a ∨ a + 4 ≤ b) :
    readByte (writeWord m a v) b = readByte m b := by
  rw [writeWord, readByte_writeHalf_other _ _ (by omega) (by omega),
    readByte_writeHalf_other _ _ (by omega) (by omega)]

/-- The low `n` bits of a word, zero-extended (30_encoding R48). -/
theorem setWidth_extractLsb'_low (v : Word) (n : Nat) :
    (v.extractLsb' 0 n).setWidth 32 = BitVec.ofNat 32 (v.toNat % 2 ^ n) :=
  BitVec.eq_of_toNat_eq (by simp)

/-- A host read of the bytes just written gives their value, zero-extended. -/
theorem readSized_writeSized_same (m : Memory) (size : AccessSize) (a : Nat) (v : Word) :
    readSized (writeSized m size a v) size a = BitVec.ofNat 32 (v.toNat % 2 ^ (8 * size.bytes)) := by
  cases size with
  | byte =>
    rw [writeSized, readSized, readByte_writeByte_same]
    exact setWidth_extractLsb'_low v 8
  | half =>
    rw [writeSized, readSized, readHalf_writeHalf_same]
    exact setWidth_extractLsb'_low v 16
  | word =>
    rw [writeSized, readSized, readWord_writeWord_same, ← setWidth_extractLsb'_low]
    simp [AccessSize.bytes]

/-- A host write changes no byte outside the ones it names. -/
theorem readByte_writeSized_other (m : Memory) {size : AccessSize} {a b : Nat} (v : Word)
    (h : b < a ∨ a + size.bytes ≤ b) : readByte (writeSized m size a v) b = readByte m b := by
  cases size with
  | byte => exact readByte_writeByte_other m _ (by simp only [AccessSize.bytes] at h; omega)
  | half =>
    simp only [AccessSize.bytes] at h
    exact readByte_writeHalf_other m _ (by omega) (by omega)
  | word => exact readByte_writeWord_other m v h

/-- The host's next move is a write to ordinary memory (42_host_access R80). -/
theorem step_memWrite {s : State} {rest : List Move} {size : AccessSize} {a : Nat} {v : Word}
    (hturns : s.turns = .memWrite size a v :: rest) (hin : a + size.bytes ≤ Config.memBytes)
    (hmem : memTarget s.platform a size.bytes = .memory) :
    step s = .next ({ s with turns := rest }.setMem (writeSized s.mem size a v)) := by
  simp [step, takeTurn, hturns, doMove, hostMemWrite, hin, hmem]

/-- The host's next move is a read of ordinary memory (42_host_access R80). -/
theorem step_memRead {s : State} {rest : List Move} {size : AccessSize} {a : Nat}
    (hturns : s.turns = .memRead size a :: rest) (hin : a + size.bytes ≤ Config.memBytes)
    (hmem : memTarget s.platform a size.bytes = .memory) :
    step s = .next ({ s with turns := rest }.pushResult (readSized s.mem size a)) := by
  simp [step, takeTurn, hturns, doMove, hostMemRead, hin, hmem]

end Sys2Proof.Machine

namespace Sys2Proof.Safety

open Sys2Proof.Machine

/-- Settles O22: the write and the read are one step each. -/
theorem hostMemoryReadBack : Obligations.HostMemoryReadBack := by
  intro s rest size a v hturns hin hmem
  have hwrite := step_memWrite hturns hin hmem
  have hread := step_memRead (s := { s with turns := .memRead size a :: rest }.setMem (writeSized s.mem size a v))
    rfl hin hmem
  refine ⟨_, runFor_then (runFor_then rfl hwrite) hread, ?_, rfl, rfl, rfl, rfl, rfl,
    fun b hb => readByte_writeSized_other s.mem v hb⟩
  rw [pushResult_results, setMem_mem, readSized_writeSized_same]
  rfl

/-- Settles O5: an idle block with a legal `PAGE_BASE` accepts a command only on ordinary memory. -/
theorem pageNotOrdinaryRefused : Obligations.PageNotOrdinaryRefused := by
  intro i s hidle hbase hpage
  rw [exec_eq, guardedWrite_idle _ hidle]
  simp [acceptCommand, hbase, hpage]

end Sys2Proof.Safety
end

section
/-!
The block and memory (20_memory R27, R32, R33): a micro-operation writes no byte but the two of the Checksum Field, and
what it does depends on no byte outside the page.
-/

namespace Sys2Proof.Machine

/-! ### What a micro-operation writes -/

/-- The operands and `WRERR` are the same in both blocks. -/
def SameOperands (b c : Block) : Prop :=
  c.pageBase = b.pageBase ∧ c.blkidx = b.blkidx ∧ c.op = b.op ∧ c.wrerr = b.wrerr

theorem sameOperands_absorbed (b : Block) (x : Word) : SameOperands b (b.absorbed x) := by
  unfold Block.absorbed
  split <;> exact ⟨rfl, rfl, rfl, rfl⟩

theorem sameOperands_finalized (b : Block) : SameOperands b b.finalized := by
  unfold Block.finalized
  split <;> exact ⟨rfl, rfl, rfl, rfl⟩

theorem sameOperands_folded (b : Block) : SameOperands b b.folded := by
  unfold Block.folded
  split
  · split <;> exact ⟨rfl, rfl, rfl, rfl⟩
  · exact ⟨rfl, rfl, rfl, rfl⟩

/-- No micro-operation writes an operand register or `WRERR` (10_state R14, R15, R20, R22). -/
theorem sameOperands_microOp {p : Config.Params} {s t : State} (h : microOp p s = .next t) :
    SameOperands s.blk t.blk := by
  rcases microOp_cases h with ⟨_, rfl⟩ | ⟨_, rfl⟩ | ⟨_, _, rfl⟩ | ⟨_, rfl⟩ | ⟨_, _, rfl⟩ | ⟨_, rfl⟩ | ⟨_, rfl⟩ |
    ⟨_, _, rfl⟩ | ⟨_, rfl⟩ | ⟨_, rfl⟩ | ⟨_, _, _, rfl⟩ | ⟨_, rfl⟩ | ⟨_, rfl⟩ | ⟨_, rfl⟩
  on_goal 7 => exact sameOperands_folded _
  on_goal 6 => exact sameOperands_finalized _
  on_goal 5 => exact sameOperands_absorbed _ _
  all_goals exact ⟨rfl, rfl, rfl, rfl⟩

/-- Outside the field a micro-operation changes no byte of memory (20_memory R32). -/
theorem readByte_microOp_other {p : Config.Params} {s t : State} (h : microOp p s = .next t) {a : Nat}
    (h0 : a ≠ fieldAddr p s.blk) (h1 : a ≠ fieldAddr p s.blk + 1) : readByte t.mem a = readByte s.mem a := by
  rcases microOp_mem h with hm | ⟨_, hm | hm⟩ <;> rw [hm]
  · exact readByte_writeHalf_other _ _ h0 h1
  · exact readByte_writeHalf_other _ _ h0 h1

/-- After a micro-operation the state differs in the addressed block and in memory only. -/
theorem microOp_eq_setBlk_setMem {p : Config.Params} {s t : State} (h : microOp p s = .next t) :
    t = (s.setBlk t.blk).setMem t.mem := by
  obtain ⟨hothers, hplatform, hturns, hresults, hctr⟩ := microOp_frame h
  simp only [State.setBlk, State.setMem, ← hothers, ← hplatform, ← hturns, ← hresults, ← hctr]

/-! ### What a micro-operation reads -/

/-- Two outcomes that differ in memory only: `r` starts from memory `m` and `r'` from memory `m'`, and they leave
memory as it was or both write the same value to the field at `a`. -/
inductive SameButMemory (a : Nat) (m m' : Memory) : Result → Result → Prop
  | kept (t : State) (hm : t.mem = m) : SameButMemory a m m' (.next t) (.next (t.setMem m'))
  | wrote (t : State) (v : Half) (hm : t.mem = writeHalf m a v) :
      SameButMemory a m m' (.next t) (.next (t.setMem (writeHalf m' a v)))
  | stopped (r : Fault) : SameButMemory a m m' (.fault r) (.fault r)

/-- Whether an access of the block completes depends neither on its value nor on memory (20_memory R37). -/
theorem busAccess_uniform (s : State) (m : Memory) (a n : Nat) :
    (∀ {α : Type} (v : α), busAccess s a n v = .ok v ∧ busAccess (s.setMem m) a n v = .ok v) ∨
    (∀ {α : Type} (v : α), busAccess s a n v = .busError ∧ busAccess (s.setMem m) a n v = .busError) ∨
    (∀ {α : Type} (v : α), busAccess s a n v = .noAddress ∧ busAccess (s.setMem m) a n v = .noAddress) := by
  by_cases hin : a + n ≤ Config.memBytes
  · cases hadm : memAdmits s.platform a n with
    | true => exact .inl fun v => ⟨busAccess_admitted v hin hadm, busAccess_admitted v hin hadm⟩
    | false => exact .inr (.inl fun v => ⟨busAccess_refused v hin hadm, busAccess_refused v hin hadm⟩)
  · exact .inr (.inr fun v => ⟨(busAccess_noAddress_iff _ a n v).2 hin, (busAccess_noAddress_iff _ a n v).2 hin⟩)

section TwoMemories

variable {p : Config.Params} {s : State} {m : Memory}

theorem opSave_sameButMemory (h : readHalf m (fieldAddr p s.blk) = readHalf s.mem (fieldAddr p s.blk)) :
    SameButMemory (fieldAddr p s.blk) s.mem m (opSave p s) (opSave p (s.setMem m)) := by
  rcases busAccess_uniform s m (fieldAddr p s.blk) 2 with hb | hb | hb <;> simp only [opSave, busReadHalf, setMem_blk,
    setMem_mem, h, hb]
  · exact .kept (s.setBlk _) rfl
  · exact .kept (raiseFault _ _ s) rfl
  · exact .stopped _

theorem opZero_sameButMemory :
    SameButMemory (fieldAddr p s.blk) s.mem m (opZero p s) (opZero p (s.setMem m)) := by
  rcases busAccess_uniform s m (fieldAddr p s.blk) 2 with hb | hb | hb <;> simp only [opZero, busWriteHalf, setMem_blk,
    setMem_mem, hb]
  · exact .wrote ((s.setBlk _).setMem _) _ rfl
  · exact .kept (raiseFault _ _ s) rfl
  · exact .stopped _

theorem opAbsorb_sameButMemory (a : Nat) (h : readWord m (wordAddr s.blk) = readWord s.mem (wordAddr s.blk)) :
    SameButMemory a s.mem m (opAbsorb s) (opAbsorb (s.setMem m)) := by
  rcases busAccess_uniform s m (wordAddr s.blk) 4 with hb | hb | hb <;> simp only [opAbsorb, busReadWord, setMem_blk,
    setMem_mem, h, hb]
  · exact .kept (s.setBlk _) rfl
  · exact .kept (raiseFault _ _ s) rfl
  · exact .stopped _

theorem opRestore_sameButMemory :
    SameButMemory (fieldAddr p s.blk) s.mem m (opRestore p s) (opRestore p (s.setMem m)) := by
  rcases busAccess_uniform s m (fieldAddr p s.blk) 2 with hb | hb | hb <;> simp only [opRestore, busWriteHalf,
    setMem_blk, setMem_mem, hb]
  · exact .wrote ((s.setBlk _).setMem _) _ rfl
  · exact .kept (raiseFault _ _ s) rfl
  · exact .stopped _

theorem opAbort_sameButMemory :
    SameButMemory (fieldAddr p s.blk) s.mem m (opAbort p s) (opAbort p (s.setMem m)) := by
  cases hv : s.blk.savedValid with
  | false =>
    simp only [opAbort, setMem_blk, hv]
    exact .kept (s.setBlk _) rfl
  | true =>
    rcases busAccess_uniform s m (fieldAddr p s.blk) 2 with hb | hb | hb <;> simp only [opAbort, busWriteHalf,
      setMem_blk, setMem_mem, hv, hb]
    · exact .wrote ((s.setBlk _).setMem _) _ rfl
    · exact .kept (s.setBlk _) rfl
    · exact .stopped _

/-- With another memory that holds the same field and the same next word, a micro-operation does the same. -/
theorem microOp_sameButMemory (hfield : readHalf m (fieldAddr p s.blk) = readHalf s.mem (fieldAddr p s.blk))
    (hword : readWord m (wordAddr s.blk) = readWord s.mem (wordAddr s.blk)) :
    SameButMemory (fieldAddr p s.blk) s.mem m (microOp p s) (microOp p (s.setMem m)) := by
  unfold microOp
  rw [setMem_blk]
  cases s.blk.phase with
  | idle | faulted => exact .kept s rfl
  | save => exact opSave_sameButMemory hfield
  | zero => exact opZero_sameButMemory
  | absorb => exact opAbsorb_sameButMemory _ hword
  | restore => exact opRestore_sameButMemory
  | abort => exact opAbort_sameButMemory
  | init | final | fold | salt | reduce => exact .kept (s.setBlk _) rfl

end TwoMemories

end Sys2Proof.Machine

namespace Sys2Proof.Safety

open Sys2Proof.Machine

/-- Settles O36: a micro-operation keeps the operands and writes memory in the field only. -/
theorem onlyFieldWritten : Obligations.OnlyFieldWritten := by
  intro p s t h
  obtain ⟨hbase, hblkidx, hop, hwrerr⟩ := sameOperands_microOp h
  exact ⟨microOp_eq_setBlk_setMem h, hbase, hblkidx, hop, hwrerr, fun a h0 h1 => readByte_microOp_other h h0 h1⟩

/-! ### The page is all a block sees of memory -/

/-- Memory `m` holds the same bytes as `s` in the page of `s` (20_memory R27). -/
def SamePage (s : State) (m : Memory) : Prop :=
  ∀ o < 8192, readByte m (s.blk.pageBase.toNat + o) = readByte s.mem (s.blk.pageBase.toNat + o)

theorem SamePage.readHalf_eq {s : State} {m : Memory} (h : SamePage s m) {o : Nat} (ho : o ≤ 8190) :
    readHalf m (s.blk.pageBase.toNat + o) = readHalf s.mem (s.blk.pageBase.toNat + o) := by
  rw [readHalf, readHalf, Nat.add_assoc, h o (by omega), h (o + 1) (by omega)]

theorem SamePage.readWord_eq {s : State} {m : Memory} (h : SamePage s m) {o : Nat} (ho : o ≤ 8188) :
    readWord m (s.blk.pageBase.toNat + o) = readWord s.mem (s.blk.pageBase.toNat + o) := by
  rw [readWord_eq_append, readWord_eq_append, h.readHalf_eq (by omega), Nat.add_assoc, h.readHalf_eq (by omega)]

/-- The word a block reads next lies in its page: `IDX` has 11 bits. -/
theorem SamePage.readWord_wordAddr {s : State} {m : Memory} (h : SamePage s m) :
    readWord m (wordAddr s.blk) = readWord s.mem (wordAddr s.blk) := by
  have hidx := s.blk.idx.isLt
  exact h.readWord_eq (by omega)

/-- Settles O38: both runs leave memory alone or write the same value to the field, which lies in the page. -/
theorem onlyPageRead : Obligations.OnlyPageRead := by
  intro p s t m hoff (hpage : SamePage s m) h
  have hsame := microOp_sameButMemory (hpage.readHalf_eq hoff) hpage.readWord_wordAddr
  have hfield : fieldAddr p s.blk = s.blk.pageBase.toNat + p.cksumOff := rfl
  rw [h] at hsame
  generalize microOp p (s.setMem m) = r at hsame ⊢
  cases hsame with
  | kept _ hm =>
    refine ⟨_, rfl, rfl, fun o ho => ?_, fun a _ => rfl⟩
    rw [setMem_mem, hm, hpage o ho]
  | wrote _ v hm =>
    refine ⟨_, rfl, rfl, fun o ho => ?_, fun a ha => ?_⟩
    · rw [setMem_mem, hm, readByte_writeHalf, readByte_writeHalf, hpage o ho]
    · exact readByte_writeHalf_other m v (by omega) (by omega)

end Sys2Proof.Safety
end

section
/-!
The command map (30_encoding R43 to R45, R49): a word is selected exactly when it is the encoding of the row's command,
so the decoder answers a command on that command's word and on no other.
-/

namespace Sys2Proof

theorem encode_mix : encode .mix = 0x00000001#32 := by decide

theorem encode_cksum : encode .cksum = 0x00000002#32 := by decide

/-- Every row of the map compares all 32 bits with the word of its own command (30_encoding R44). -/
theorem opcodeMap_rows : ∀ r ∈ opcodeMap, r.mask = BitVec.allOnes 32 ∧ r.matchBits = encode r.instr := by
  simp only [opcodeMap, List.forall_mem_cons]
  decide

/-- A row of the map selects the word of its command and no other. -/
theorem selects_iff {r : OpcodeRow} (hr : r ∈ opcodeMap) (w : Word) : r.selects w = true ↔ w = encode r.instr := by
  obtain ⟨hmask, hmatch⟩ := opcodeMap_rows r hr
  rw [OpcodeRow.selects, hmask, hmatch, BitVec.and_allOnes, beq_iff_eq]

/-- Both commands decode from their own word. -/
@[simp] theorem decode_encode (i : Instr) : decode (encode i) = .command i := by
  cases i <;> decide

/-- A word decodes to a command exactly when it is the word of that command. -/
theorem decode_eq_command_iff (w : Word) (i : Instr) : decode w = .command i ↔ w = encode i := by
  constructor
  · intro h
    unfold decode at h
    split at h
    next r hr =>
      obtain rfl : r.instr = i := by simpa using h
      have hsel : r.selects w = true := List.find?_some (p := fun r : OpcodeRow => r.selects w) hr
      exact (selects_iff (List.mem_of_find?_eq_some hr) w).1 hsel
    next => simp at h
  · rintro rfl
    exact decode_encode i

/-- A word is illegal exactly when it is no command's word: the decoder is total (30_encoding R45). -/
theorem decode_illegal_iff (w : Word) : (∃ why, decode w = .illegal why) ↔ ∀ i, w ≠ encode i := by
  simp only [ne_eq, ← decode_eq_command_iff]
  cases decode w with
  | command i => simp
  | illegal why => simp

/-- Settles O2: the two commands' words are 1 and 2, and every other word is illegal. -/
theorem onlyTwoWordsAreCommands : Obligations.OnlyTwoWordsAreCommands := by
  intro w
  refine ⟨encode_mix ▸ decode_eq_command_iff w .mix, encode_cksum ▸ decode_eq_command_iff w .cksum, ?illegal⟩
  case illegal =>
    rw [decode_illegal_iff, ← encode_mix, ← encode_cksum]
    constructor
    · exact fun h => ⟨h .mix, h .cksum⟩
    · rintro ⟨hmix, hcksum⟩ (_ | _)
      · exact hmix
      · exact hcksum

/-- Settles O3: both directions of `decode_eq_command_iff`. -/
theorem decodeEncodeAgree : Obligations.DecodeEncodeAgree :=
  ⟨decode_encode, fun w i h => ((decode_eq_command_iff w i).1 h).symm⟩

/-- Settles O1: the legal words through the encoder, the illegal ones by running the decoder on V54 to V56. -/
theorem commandWordsDecode : Obligations.CommandWordsDecode :=
  ⟨encode_mix ▸ decode_encode .mix, encode_cksum ▸ decode_encode .cksum, encode_mix, encode_cksum, by decide,
    by decide, by decide⟩

/-- All 32 bits of a table word reach the decoder (30_encoding R49). -/
theorem decodeTableWord_eq_some_iff (w : Nat) (i : Instr) :
    decodeTableWord 32 w = some i ↔ decode (BitVec.ofNat 32 (w % 2 ^ 32)) = .command i := by
  rw [decodeTableWord, if_pos le_rfl]
  cases decode (BitVec.ofNat 32 (w % 2 ^ 32)) with
  | command j => simp
  | illegal why => simp

end Sys2Proof
end

section
/-!
The next move of the host: a write of a command word to `CMD` runs the command (42_host_access R75), and `wait` polls
`STATUS` until the block is not busy (30_encoding R48, 42_host_access R81).
-/

namespace Sys2Proof.Machine

/-- A step takes the next move, in the state in which that move is gone. -/
theorem step_of_turns {s : State} {m : Move} {rest : List Move} (h : s.turns = m :: rest) :
    step s = doMove Config.params m { s with turns := rest } := by
  simp [step, takeTurn, h]

/-! ### A command word (30_encoding R43, R44) -/

theorem regWrite_cmd (w : Word) (s : State) : regWrite 0x00 .word w s = writeCmd w s := rfl

theorem writeCmd_command {w : Word} {i : Instr} (h : decode w = .command i) (s : State) :
    writeCmd w s = exec i s := by
  simp [writeCmd, h]

/-- A write of a word that decodes to `i` as the next move is the command `i`. -/
theorem step_regWrite_cmd {s : State} {rest : List Move} {w : Word} {i : Instr}
    (ht : s.turns = .regWrite 0 0x00 .word w :: rest) (hw : decode w = .command i) :
    step s = exec i { s with turns := rest } := by
  rw [step_of_turns ht, doMove, onBlock_zero, regWrite_cmd, writeCmd_command hw]

/-- Settles O23: `withFetchWord` places the write that `step_regWrite_cmd` takes. -/
theorem stepRunsDecoded : Obligations.StepRunsDecoded := by
  refine ⟨fun s rest w i => step_regWrite_cmd, fun s w i h => ?placed⟩
  case placed =>
    have hw := (decodeTableWord_eq_some_iff w i).1 h
    exact step_regWrite_cmd (s := s.withFetchWord 32 w) rfl hw

/-! ### The polling loop (42_host_access R81) -/

theorem regRead_status (s : State) : regRead 0x04 .word s = .next (s.pushResult (status s.blk)) := rfl

/-- A poll that finds `BUSY = 0` reads `STATUS`. -/
theorem waitFor_not_busy (p : Config.Params) {s : State} (h : s.blk.phase.busy = false) :
    waitFor p 0 s = .next (s.pushResult (status s.blk)) := by
  rw [waitFor, onBlock_zero, if_neg (by simp [h]), regRead_status]

/-- A poll that finds `BUSY = 1` runs the block's micro-operation, which leaves the moves alone, and gives the turn back:
`wait` is in front of the same moves again (log 21). -/
theorem waitFor_busy {p : Config.Params} {s t : State} (hbusy : s.blk.phase.busy = true)
    (hmicro : microOp p s = .next t) : waitFor p 0 s = .next { t with turns := .wait 0 :: s.turns } := by
  obtain ⟨_, _, hturns, _⟩ := microOp_frame hmicro
  rw [waitFor, onBlock_zero, if_pos hbusy, hmicro, retake, hturns]

/-- Settles O21: the two answers of a poll, in the state in which the `wait` is taken. -/
theorem waitPolls : Obligations.WaitPolls := by
  intro s rest ht
  rw [step_of_turns ht, doMove]
  exact ⟨waitFor_not_busy Config.params (s := { s with turns := rest }),
    fun hbusy t => waitFor_busy (s := { s with turns := rest }) hbusy⟩

end Sys2Proof.Machine
end

section
/-!
A command in flight (40_lane_mixer R59): every step of the system but the block's own reset keeps `Tracks`, phase by
phase.
-/

namespace Sys2Proof.Safety

open Sys2Proof.Machine

/-! ### `Tracks` in each phase -/

section Phases

variable {base : Config.Lanes} {W : Nat → Word} {b : Block}

theorem tracks_absorb_iff (hp : b.phase = .absorb) : Tracks base W b ↔ b.acc = lanesAfterWords base W b.idx.toNat := by
  simp only [Tracks, hp]

theorem tracks_final_iff (hp : b.phase = .final) :
    Tracks base W b ↔ b.idx.toNat < 64 ∧ b.acc = lanesAfterFinal (lanesAfterWords base W 2048) b.idx.toNat := by
  simp only [Tracks, hp]

theorem tracks_fold_iff (hp : b.phase = .fold) :
    Tracks base W b ↔ b.idx.toNat < 32 ∧ b.acc = finalLanes base W ∧
      (b.idx.toNat ≠ 0 → b.digest = foldLanes (finalLanes base W) b.idx.toNat) := by
  simp only [Tracks, hp]

theorem tracks_digest_iff (hp : b.phase = .restore ∨ b.phase = .salt) :
    Tracks base W b ↔ b.op = .cksum ∧ b.acc = finalLanes base W ∧ b.digest = mix base W := by
  rcases hp with hp | hp <;> simp only [Tracks, hp]

theorem tracks_reduce_iff (hp : b.phase = .reduce) :
    Tracks base W b ↔ b.op = .cksum ∧ b.acc = finalLanes base W ∧ b.digest = mix base W ∧
      b.comb = mix base W ^^^ b.blkidx := by
  simp only [Tracks, hp]

theorem tracks_idle_iff (hp : b.phase = .idle) :
    Tracks base W b ↔ b.done = true ∧ b.acc = finalLanes base W ∧ b.digest = mix base W ∧
      (b.op = .cksum → b.comb = mix base W ^^^ b.blkidx ∧ b.result = reduce16 (mix base W ^^^ b.blkidx)) := by
  simp only [Tracks, hp]

/-- Nothing is claimed before the first word is read, nor after a fault. -/
theorem tracks_unclaimed
    (hp : b.phase = .save ∨ b.phase = .zero ∨ b.phase = .init ∨ b.phase = .abort ∨ b.phase = .faulted) :
    Tracks base W b := by
  rcases hp with hp | hp | hp | hp | hp <;> simp only [Tracks, hp]

/-! ### The three phases that count `IDX` -/

/-- `IDX` counts on without wrapping below its last value. -/
theorem idx_succ_toNat {i : BitVec 11} (h : i.toNat < 2047) : (i + 1#11).toNat = i.toNat + 1 := by
  rw [BitVec.toNat_add_of_lt (Nat.succ_lt_succ h)]
  rfl

theorem tracks_absorbed (hp : b.phase = .absorb) (h : Tracks base W b) :
    Tracks base W (b.absorbed (W b.idx.toNat)) := by
  have hidx := b.idx.isLt
  have hacc : mixLane b.acc b.idx.toNat (W b.idx.toNat) = lanesAfterWords base W (b.idx.toNat + 1) := by
    rw [(tracks_absorb_iff hp).1 h, lanesAfterWords]
  by_cases hi : b.idx.toNat = 2047
  · rw [absorbed_last _ hi, hacc, hi, tracks_final_iff rfl]
    exact ⟨Nat.zero_lt_succ 63, rfl⟩
  · rw [absorbed_more _ hi, hacc, ← idx_succ_toNat (by omega)]
    exact (tracks_absorb_iff (by exact hp)).2 rfl

theorem tracks_finalized (hp : b.phase = .final) (h : Tracks base W b) : Tracks base W b.finalized := by
  obtain ⟨hlt, hlanes⟩ := (tracks_final_iff hp).1 h
  have hacc : mixLane b.acc b.idx.toNat 0#32 =
      lanesAfterFinal (lanesAfterWords base W 2048) (b.idx.toNat + 1) := by
    rw [hlanes, lanesAfterFinal]
  by_cases hi : b.idx.toNat = 63
  · rw [finalized_last hi, hacc, hi, tracks_fold_iff rfl]
    exact ⟨Nat.zero_lt_succ 31, rfl, fun h0 => absurd rfl h0⟩
  · have hnext := idx_succ_toNat (i := b.idx) (by omega)
    rw [finalized_more hi, hacc, ← hnext]
    exact (tracks_final_iff (by exact hp)).2 ⟨hnext.trans_lt (by omega), rfl⟩

/-- In `FOLD` the digest becomes the fold of one lane more; at lane 0 the old value does not count. -/
theorem foldDigest_eq_foldLanes
    (h : b.idx.toNat ≠ 0 → b.digest = foldLanes b.acc b.idx.toNat) :
    foldDigest b = foldLanes b.acc (b.idx.toNat + 1) := by
  rw [foldDigest, foldLanes]
  split
  · rename_i h0
    rw [h0, foldLanes, BitVec.zero_xor]
  · rename_i h0
    rw [h h0]

theorem tracks_folded (hp : b.phase = .fold) (h : Tracks base W b) : Tracks base W b.folded := by
  obtain ⟨hlt, hacc, hdigest⟩ := (tracks_fold_iff hp).1 h
  have hfold : foldDigest b = foldLanes (finalLanes base W) (b.idx.toNat + 1) :=
    hacc ▸ foldDigest_eq_foldLanes (hacc ▸ hdigest)
  by_cases hi : b.idx.toNat = 31
  · have hmix : foldDigest b = mix base W := by rw [hfold, hi, mix]
    cases ho : b.op with
    | mix =>
      rw [folded_mix hi ho, hmix, tracks_idle_iff rfl]
      exact ⟨rfl, hacc, rfl, by simp [ho]⟩
    | cksum =>
      rw [folded_cksum hi ho, hmix, tracks_digest_iff (.inl rfl)]
      exact ⟨ho, hacc, rfl⟩
  · have hnext := idx_succ_toNat (i := b.idx) (by omega)
    rw [folded_more hi, hfold, ← hnext]
    exact (tracks_fold_iff (by exact hp)).2 ⟨hnext.trans_lt (by omega), hacc, fun _ => rfl⟩

end Phases

/-! ### Every step -/

/-- A micro-operation of a busy block keeps `Tracks`, if a word it absorbs is the next one of `W`. -/
theorem tracks_microOp {W : Nat → Word} {s t : State} (h : Tracks Config.base W s.blk)
    (hbusy : s.blk.phase.busy = true)
    (hword : s.blk.phase = .absorb → memAdmits s.platform (wordAddr s.blk) 4 = true →
      W s.blk.idx.toNat = readWord s.mem (wordAddr s.blk))
    (he : microOp Config.params s = .next t) : Tracks Config.base W t.blk := by
  rcases microOp_cases he with ⟨hidle, rfl⟩ | ⟨_, rfl⟩ | ⟨_, _, rfl⟩ | ⟨_, rfl⟩ | ⟨hp, hadm, rfl⟩ | ⟨hp, rfl⟩ |
    ⟨hp, rfl⟩ | ⟨hp, _, rfl⟩ | ⟨hp, rfl⟩ | ⟨hp, rfl⟩ | ⟨_, _, _, rfl⟩ | ⟨_, rfl⟩ | ⟨_, rfl⟩ | ⟨_, rfl⟩
  · simp [hidle] at hbusy
  · exact tracks_unclaimed (by simp)
  · exact tracks_unclaimed (by simp)
  · exact (tracks_absorb_iff rfl).2 rfl
  · rw [← hword hp hadm]
    exact tracks_absorbed hp h
  · exact tracks_finalized hp h
  · exact tracks_folded hp h
  · exact (tracks_digest_iff (.inr rfl)).2 ((tracks_digest_iff (.inl hp)).1 h)
  · obtain ⟨hop, hacc, hdigest⟩ := (tracks_digest_iff (.inr hp)).1 h
    exact (tracks_reduce_iff rfl).2 ⟨hop, hacc, hdigest, congrArg (· ^^^ s.blk.blkidx) hdigest⟩
  · obtain ⟨_, hacc, hdigest, hcomb⟩ := (tracks_reduce_iff hp).1 h
    exact (tracks_idle_iff rfl).2 ⟨rfl, hacc, hdigest, fun _ => ⟨hcomb, congrArg reduce16 hcomb⟩⟩
  all_goals exact tracks_unclaimed (by simp)

/-- A register write to a busy block leaves what `Tracks` speaks of (42_host_access R76). -/
theorem tracks_regEffect {base : Config.Lanes} {W : Nat → Word} {s : State} {b : Block}
    (h : Tracks base W s.blk) (hbusy : s.blk.phase.busy = true) (he : RegEffect s b) : Tracks base W b := by
  cases he with
  | dropped | whileBusy _ => exact h
  | accepted _ idle _ _ | badBase idle | illegal idle | pageBase _ idle | blkidx _ idle =>
    simp [idle, Phase.busy] at hbusy

/-- Settles O15: block 0 changes by its own micro-operation, in its own turn, or by a register write. -/
theorem outputsTrackWordsRead : Obligations.OutputsTrackWordsRead := by
  intro W s t h hbusy hreset hword hstep
  rcases step_blk_cases hstep with ⟨hr, _⟩ | ⟨hturn, u, hu, hb⟩ | he
  · exact absurd hr hreset
  · rw [hb]
    exact tracks_microOp (s := afterTake s) h hbusy (fun hp => hword hp hturn) hu
  · exact tracks_regEffect (s := afterTake s) h hbusy he

end Sys2Proof.Safety
end

section
/-!
The mixing step over the numbers (40_lane_mixer R50, R58), and the Lane Mixer lane by lane (R51).
-/

namespace Sys2Proof.Machine

/-! ### The mixing step -/

/-- The multiplication of the mixing step discards overflow (40_lane_mixer R50). -/
theorem toNat_mul_fnvPrime (tmp : Word) : (tmp * 16777619#32).toNat = tmp.toNat * 16777619 % 2 ^ 32 :=
  BitVec.toNat_mul _ _

/-- The shift of the mixing step is a quotient: it fills with zeros (40_lane_mixer R50). -/
theorem toNat_ushiftRight_shift (tmp : Word) : (tmp >>> 17).toNat = tmp.toNat / 2 ^ 17 := by
  rw [BitVec.toNat_ushiftRight, Nat.shiftRight_eq_div_pow]

theorem mul_fnvPrime_eq_ofNat (tmp : Word) :
    tmp * 16777619#32 = BitVec.ofNat 32 (tmp.toNat * 16777619 % 2 ^ 32) := by
  rw [← toNat_mul_fnvPrime, BitVec.ofNat_toNat, BitVec.setWidth_eq]

theorem ushiftRight_shift_eq_ofNat (tmp : Word) : tmp >>> 17 = BitVec.ofNat 32 (tmp.toNat / 2 ^ 17) := by
  rw [← toNat_ushiftRight_shift, BitVec.ofNat_toNat, BitVec.setWidth_eq]

/-- The mixing step as a product modulo 2^32 and a quotient. -/
theorem mixstep_eq_ofNat (acc x : Word) :
    mixstep acc x = BitVec.ofNat 32 ((acc ^^^ x).toNat * 16777619 % 2 ^ 32) ^^^
      BitVec.ofNat 32 ((acc ^^^ x).toNat / 2 ^ 17) := by
  rw [mixstep_eq, mul_fnvPrime_eq_ofNat, ushiftRight_shift_eq_ofNat]

/-- Settles O39: the number form of the step, and one value by running it. -/
theorem mixstepFormula : Obligations.MixstepFormula := by
  refine ⟨?_, by decide⟩
  rintro acc x _ rfl
  exact mixstep_eq_ofNat acc x

theorem mixstep_xor_quotient (a x : Word) :
    mixstep a x ^^^ BitVec.ofNat 32 ((a ^^^ x).toNat / 2 ^ 17) = (a ^^^ x) * 16777619#32 := by
  rw [mixstep_eq, ← ushiftRight_shift_eq_ofNat, BitVec.xor_assoc, BitVec.xor_self, BitVec.xor_zero]

theorem mixstep_xor_product (a x : Word) :
    mixstep a x ^^^ BitVec.ofNat 32 ((a ^^^ x).toNat * 16777619 % 2 ^ 32) = (a ^^^ x) >>> 17 := by
  rw [mixstep_eq, ← mul_fnvPrime_eq_ofNat, BitVec.xor_comm, ← BitVec.xor_assoc, BitVec.xor_self, BitVec.zero_xor]

/-- `FNV_PRIME` is 2^24 + 2^8 + 0x93 (40_lane_mixer R58). -/
theorem mul_fnvPrime_eq_shifts (tmp : Word) :
    tmp * 16777619#32 = (tmp <<< 24) + (tmp <<< 8) + tmp * 0x93#32 := by
  have hprime : 16777619#32 = BitVec.twoPow 32 24 + BitVec.twoPow 32 8 + 0x93#32 := by decide
  rw [hprime, BitVec.mul_add, BitVec.mul_add, BitVec.shiftLeft_eq_mul_twoPow, BitVec.shiftLeft_eq_mul_twoPow]

/-- The inputs of the mixing step count through their XOR only (40_lane_mixer R58). -/
theorem mixstep_congr {a x b y : Word} (h : a ^^^ x = b ^^^ y) : mixstep a x = mixstep b y := by
  rw [mixstep_eq, mixstep_eq, h]

theorem mixstep_self (a : Word) : mixstep a a = 0#32 := by
  rw [mixstep_eq, BitVec.xor_self]
  decide

/-- Settles O40, by taking the quotient or the product out of the step. -/
theorem mixstepLaws : Obligations.MixstepLaws := by
  refine ⟨?_, fun a => ⟨mixstep_self a, mixstep_congr (BitVec.xor_comm a 0#32)⟩, fun a x b y => mixstep_congr⟩
  rintro a x _ rfl
  have hlt := (a ^^^ x).isLt
  have hquot : 131072 = 2 ^ 17 := by norm_num
  rw [hquot, mixstep_xor_quotient, mixstep_xor_product, toNat_ushiftRight_shift]
  exact ⟨toNat_mul_fnvPrime _, mul_fnvPrime_eq_shifts _, rfl, by omega⟩

/-! ### The Lane Mixer lane by lane -/

/-- Lane `c` after `n` words has taken one word from each of the `(n + 31 - c) / 32` rows that have reached its column
(40_lane_mixer R51). -/
theorem getLane_lanesAfterWords (base : Config.Lanes) (W : Nat → Word) (c : Fin 32) (n : Nat) :
    getLane (lanesAfterWords base W n) c = laneRows base W c ((n + 31 - c.val) / 32) := by
  have hc := c.isLt
  induction n with
  | zero =>
    have hrows : (0 + 31 - c.val) / 32 = 0 := by omega
    rw [hrows, lanesAfterWords, laneRows]
  | succ n ih =>
    rw [lanesAfterWords, getLane_mixLane, ih]
    split
    · rename_i hcol
      have hn := eq_row_add_of_laneOf hcol
      have hold : (n + 31 - c.val) / 32 = n / 32 := by omega
      have hnew : (n + 1 + 31 - c.val) / 32 = n / 32 + 1 := by omega
      rw [hold, hnew, laneRows, ← hn]
    · rename_i hcol
      have hne : c.val ≠ n % 32 := fun e => hcol (Fin.ext e)
      have hsame : (n + 1 + 31 - c.val) / 32 = (n + 31 - c.val) / 32 := by omega
      rw [hsame]

/-- The zero rounds are words that are all 0. -/
theorem lanesAfterFinal_eq_lanesAfterWords (a : Config.Lanes) (n : Nat) :
    lanesAfterFinal a n = lanesAfterWords a (fun _ => 0#32) n := by
  induction n with
  | zero => rfl
  | succ n ih => rw [lanesAfterFinal, lanesAfterWords, ih]

/-- Each final lane is `lane(c)` of 40_lane_mixer R51. -/
theorem getLane_finalLanes (base : Config.Lanes) (W : Nat → Word) (c : Fin 32) :
    getLane (finalLanes base W) c = laneFinal base W c := by
  have hc := c.isLt
  have hrounds : (Config.finalRounds * Config.nLanes + 31 - c.val) / 32 = 2 := by
    change (64 + 31 - c.val) / 32 = 2
    omega
  have hrows : (Config.nWords + 31 - c.val) / 32 = Config.nRows := by
    change (2048 + 31 - c.val) / 32 = 64
    omega
  rw [finalLanes, lanesAfterFinal_eq_lanesAfterWords, getLane_lanesAfterWords, hrounds, laneRows, laneRows, laneRows,
    getLane_lanesAfterWords, hrows, laneFinal]

/-- The fold of the first `n` lanes, as a fold of the list of their numbers. -/
theorem foldLanes_eq_foldl (a : Config.Lanes) (n : Nat) :
    foldLanes a n = (List.range n).foldl (fun d i => d ^^^ getLane a (laneOf i)) 0#32 := by
  induction n with
  | zero => rfl
  | succ n ih => rw [foldLanes, ih, List.range_succ, List.foldl_append, List.foldl_cons, List.foldl_nil]

theorem laneOf_val (c : Fin 32) : laneOf c.val = c :=
  Fin.ext (Nat.mod_eq_of_lt c.isLt)

/-- Settles O41: the loops take the words lane by lane, and fold the lanes in order. -/
theorem mixIsXorOfLanes : Obligations.MixIsXorOfLanes := by
  intro base W
  refine ⟨getLane_finalLanes base W, ?_⟩
  rw [mix, foldLanes_eq_foldl, ← List.map_coe_finRange_eq_range, List.foldl_map]
  simp only [laneOf_val, getLane_finalLanes]

end Sys2Proof.Machine
end

section
/-!
The micro-operations of the Lane Mixer one by one (40_lane_mixer R53 to R56), a whole `MIX`, and what a `MIX` leaves
alone (R52).
-/

namespace Sys2Proof.Machine

/-- A mixing step on the lane with number `n mod 32`. -/
theorem mixLane_eq_setLane (a : Config.Lanes) {n : Nat} {c : Fin 32} (h : c.val = n % 32) (x : Word) :
    mixLane a n x = setLane a c (mixstep (getLane a c) x) := by
  obtain rfl : c = laneOf n := Fin.ext h
  rfl

/-- A refused `ABSORB` enters `ABORT` (60_exceptions R86). -/
theorem opAbsorb_refused {s : State} (h : wordAddr s.blk + 4 ≤ Config.memBytes)
    (ha : memAdmits s.platform (wordAddr s.blk) 4 = false) :
    opAbsorb s = .next (s.setBlk (s.blk.raiseFault .busError .abort)) := by
  rw [opAbsorb, busReadWord, busAccess_refused _ h ha, raiseFault_eq]

/-- Memory changes only where the field is zeroed or put back (20_memory R33). -/
theorem mem_kept_or_field_written_of_microOp {p : Config.Params} {s t : State} (h : microOp p s = .next t) :
    t.mem = s.mem ∨ s.blk.phase = .zero ∨ s.blk.phase = .restore ∨ s.blk.savedValid = true := by
  rcases microOp_cases h with ⟨_, rfl⟩ | ⟨_, rfl⟩ | ⟨hp, _, _⟩ | ⟨_, rfl⟩ | ⟨_, _, rfl⟩ | ⟨_, rfl⟩ | ⟨_, rfl⟩ |
    ⟨hp, _, _⟩ | ⟨_, rfl⟩ | ⟨_, rfl⟩ | ⟨_, hv, _, _⟩ | ⟨_, rfl⟩ | ⟨_, rfl⟩ | ⟨_, rfl⟩
  on_goal 3 => exact .inr (.inl hp)
  on_goal 7 => exact .inr (.inr (.inl hp))
  on_goal 9 => exact .inr (.inr (.inr hv))
  all_goals exact .inl rfl

end Sys2Proof.Machine

namespace Sys2Proof.Safety

open Sys2Proof.Machine

/-- Settles O25. -/
theorem initStep : Obligations.InitStep :=
  fun _ _ => microOp_init

/-- `IDX` at a bound is a fact about its number. -/
theorem idx_eq_iff {i : BitVec 11} {n : Nat} (h : n < 2048) : i = BitVec.ofNat 11 n ↔ i.toNat = n := by
  rw [← BitVec.toNat_inj, idx_toNat h]

/-- Settles O26: an admitted word is absorbed, a refused one is a bus error. -/
theorem absorbStep : Obligations.AbsorbStep := by
  intro p s hp hin
  change wordAddr s.blk + 4 ≤ Config.memBytes at hin
  have haddr : s.blk.pageBase.toNat + 4 * s.blk.idx.toNat = wordAddr s.blk := rfl
  rw [microOp_absorb hp, haddr]
  refine ⟨?admitted, opAbsorb_refused hin⟩
  case admitted =>
    rintro hadm _ rfl c hc _ rfl
    rw [opAbsorb_ok hin hadm, Block.absorbed, mixLane_eq_setLane _ hc]
    simp only [idx_eq_iff (n := 2047) (by omega)]

/-- Settles O27. -/
theorem finalStep : Obligations.FinalStep := by
  rintro p s hp c hc _ rfl
  rw [microOp_final hp, Block.finalized, mixLane_eq_setLane _ hc]
  simp only [idx_eq_iff (n := 63) (by omega)]

/-- `DIGEST` after `FOLD` on lane `j` (40_lane_mixer R56). -/
theorem foldDigest_eq {b : Block} {j : Fin 32} (hj : j.val = b.idx.toNat) :
    foldDigest b = if b.idx = 0#11 then getLane b.acc 0 else b.digest ^^^ getLane b.acc j := by
  have hzero : laneOf 0 = 0 := rfl
  rw [foldDigest, ← hj, laneOf_val, hzero]
  simp only [idx_eq_iff (n := 0) (by omega), hj]

/-- Settles O28: the three ways `FOLD` goes on. -/
theorem foldStep : Obligations.FoldStep := by
  rintro p s hp hlt j hj d rfl
  rw [microOp_fold hp, ← foldDigest_eq hj]
  have hlast := idx_eq_iff (i := s.blk.idx) (n := 31) (by omega)
  refine ⟨fun hi => ?more, fun hi ho => ?mix, fun hi ho => ?cksum⟩
  case more => rw [folded_more (mt hlast.2 hi)]
  case mix => rw [folded_mix (hlast.1 hi) ho]
  case cksum => rw [folded_cksum (hlast.1 hi) ho]

/-- Settles O10: acceptance, then the 2145 micro-operations of `runFor_mix`. -/
theorem mixRuns : Obligations.MixRuns :=
  fun _ h hw ht => ⟨_, exec_ready .mix h, runFor_mix h hw ht⟩

/-- A block that runs a `MIX` is in no phase of the adapter and never has the field zeroed (10_state R18, R20). -/
theorem BlockInv.no_adapter_of_mix {pl : Platform} {b : Block} (h : BlockInv pl b) (ho : b.op = .mix) :
    adapterOnly b.phase = false ∧ b.savedValid = false := by
  have hne : b.op ≠ .cksum := by simp [ho]
  exact ⟨Bool.eq_false_iff.2 (mt h.adapterOp hne), Bool.eq_false_iff.2 fun hv => hne (h.savedOnly hv).1⟩

/-- Settles O37: each of these registers, and memory, has its only writers in the phases of a `CKSUM`. -/
theorem mixWritesNoMemory : Obligations.MixWritesNoMemory := by
  intro p s t hinv ho h
  obtain ⟨hphase, hvalid⟩ := hinv.no_adapter_of_mix ho
  obtain ⟨_, _, hop, _⟩ := sameOperands_microOp h
  obtain ⟨_, hvalid'⟩ := (blockInv_microOp hinv h).no_adapter_of_mix (hop.trans ho)
  have houtside : ∀ ph, adapterOnly ph = true → s.blk.phase ≠ ph := by
    rintro _ hph rfl
    simp [hphase] at hph
  have hwriters := writtenByOwner_microOp h
  refine ⟨?mem, ?result, ?saved, hvalid'.trans hvalid.symm, ?comb⟩
  case mem =>
    rcases mem_kept_or_field_written_of_microOp h with hm | hp | hp | hv
    · exact hm
    · exact absurd hp (houtside .zero rfl)
    · exact absurd hp (houtside .restore rfl)
    · simp [hvalid] at hv
  case result => exact not_not.1 (mt hwriters.result (houtside .reduce rfl))
  case saved => exact not_not.1 (mt hwriters.saved (houtside .save rfl))
  case comb => exact not_not.1 (mt hwriters.comb (houtside .salt rfl))

end Sys2Proof.Safety
end

section
/-!
The micro-operations of the Page Checksum Adapter one by one (41_checksum_adapter R63 to R67, 60_exceptions R86), and
the checksum as a function: the reduction (R60), its range (R70) and the field that does not count (R71).
-/

namespace Sys2Proof.Machine

/-! ### A refused access to the Checksum Field (60_exceptions R86) -/

section Refused

variable {p : Config.Params} {s : State} (h : fieldAddr p s.blk + 2 ≤ Config.memBytes)
  (ha : memAdmits s.platform (fieldAddr p s.blk) 2 = false)
include h ha

theorem opSave_refused : opSave p s = .next (s.setBlk (s.blk.raiseFault .busError .abort)) := by
  rw [opSave, busReadHalf, busAccess_refused _ h ha, raiseFault_eq]

theorem opZero_refused : opZero p s = .next (s.setBlk (s.blk.raiseFault .busError .abort)) := by
  rw [opZero, busWriteHalf, busAccess_refused _ h ha, raiseFault_eq]

/-- A refused `RESTORE` does not pass through `ABORT`. -/
theorem opRestore_refused : opRestore p s = .next (s.setBlk (s.blk.raiseFault .busError .faulted)) := by
  rw [opRestore, busWriteHalf, busAccess_refused _ h ha, raiseFault_eq]

end Refused

/-! ### The reduction (41_checksum_adapter R60) -/

/-- The reduction over the numbers: its value fits 16 bits. -/
theorem toNat_reduce16 (v : Word) : (reduce16 v).toNat = v.toNat % 65535 + 1 := by
  have hlt : v.toNat % 65535 + 1 < 2 ^ 16 := by omega
  rw [reduce16, BitVec.toNat_ofNat, Nat.mod_eq_of_lt hlt]

/-- The number of a word is that of its low half and 2^16 times that of its high half. -/
theorem toNat_eq_halves (v : Word) :
    v.toNat = (v.extractLsb' 0 16).toNat + 2 ^ 16 * (v.extractLsb' 16 16).toNat := by
  have hv : v.extractLsb' 16 16 ++ v.extractLsb' 0 16 = v := BitVec.extractLsb'_append_extractLsb'
  rw [← toNat_append_eq_add, hv]

/-- Settles O43: 2^16 is 1 modulo 65535, so the halves of a word count alike; the corner values by running the
reduction. -/
theorem reductionFormula : Obligations.ReductionFormula := by
  refine ⟨fun v => ⟨toNat_reduce16 v, ?halves⟩, by decide, by decide, by decide, by decide, by decide, by decide⟩
  case halves =>
    have hv := toNat_eq_halves v
    omega

/-! ### The field does not count (41_checksum_adapter R71) -/

/-- With the field zeroed, pages that agree outside it agree everywhere. -/
theorem zeroField_congr {off o : Nat} {page page' : Nat → Byte}
    (h : o ≠ off → o ≠ off + 1 → page o = page' o) : zeroField off page o = zeroField off page' o := by
  unfold zeroField
  split_ifs with ho
  · rfl
  · obtain ⟨h0, h1⟩ := not_or.1 ho
    exact h h0 h1

/-- A page word depends on the four bytes at its offset only. -/
theorem wordsOf_congr {page page' : Nat → Byte} {w : Nat} (h : ∀ o, 4 * w ≤ o → o < 4 * w + 4 → page o = page' o) :
    wordsOf page w = wordsOf page' w := by
  rw [wordsOf, wordsOf, h _ (by omega) (by omega), h _ (by omega) (by omega), h _ (by omega) (by omega),
    h _ (by omega) (by omega)]

/-- Settles O45: the digest is that of the 2048 words with the field zeroed, which are the same for both pages. -/
theorem fieldIndependence : Obligations.FieldIndependence := by
  intro p page page' blk h
  have hwords : ∀ w < 2048, wordsOf (zeroField p.cksumOff page) w = wordsOf (zeroField p.cksumOff page') w :=
    fun w hw => wordsOf_congr fun o _ ho => zeroField_congr (h o (by omega))
  rw [checksum, checksum, pageDigest, pageDigest, mix_congr p.base hwords]

end Sys2Proof.Machine

namespace Sys2Proof.Safety

open Sys2Proof.Machine

/-! ### The range of the result (41_checksum_adapter R70) -/

theorem half_range_of_ne_zero {r : Half} (h : r ≠ 0#16) : 1 ≤ r.toNat ∧ r.toNat ≤ 65535 :=
  ⟨Nat.pos_of_ne_zero (BitVec.toNat_ne_iff_ne.2 h), Nat.le_of_lt_succ r.isLt⟩

/-- Settles O44: the reduction never gives 0, and the invariant keeps that of `RESULT`. -/
theorem resultNeverZero : Obligations.ResultNeverZero :=
  ⟨fun _ _ _ => half_range_of_ne_zero (reduce16_ne_zero _),
    fun _ _ hinv hdone hop => half_range_of_ne_zero (hinv.resultNonzero hdone hop)⟩

/-! ### The micro-operations (41_checksum_adapter R63 to R67) -/

/-- Settles O29: the field is read, or the read is a bus error. -/
theorem saveStep : Obligations.SaveStep := by
  intro p s hp (hin : fieldAddr p s.blk + 2 ≤ Config.memBytes)
  rw [microOp_save hp]
  exact ⟨opSave_ok hin, opSave_refused hin⟩

/-- Settles O30: the field is written with 0, or the write is a bus error. -/
theorem zeroStep : Obligations.ZeroStep := by
  intro p s hp (hin : fieldAddr p s.blk + 2 ≤ Config.memBytes)
  rw [microOp_zero hp]
  refine ⟨fun hadm => ?admitted, opZero_refused hin⟩
  case admitted =>
    exact ⟨_, opZero_ok hin hadm, readHalf_writeHalf_same _ _ _, fun a => readByte_writeHalf_other _ _⟩

/-- Settles O31: the field is written with `SAVED`, or the write is a bus error that faults the block at once. -/
theorem restoreStep : Obligations.RestoreStep := by
  intro p s hp (hin : fieldAddr p s.blk + 2 ≤ Config.memBytes)
  rw [microOp_restore hp]
  refine ⟨fun hadm => ?admitted, opRestore_refused hin⟩
  case admitted =>
    exact ⟨_, opRestore_ok hin hadm, readHalf_writeHalf_same _ _ _, fun a => readByte_writeHalf_other _ _⟩

/-- Settles O32. -/
theorem saltStep : Obligations.SaltStep :=
  fun _ _ => microOp_salt

/-- Settles O33: the result is the reduction of `COMB`. -/
theorem reduceStep : Obligations.ReduceStep :=
  fun _ s hp => ⟨reduce16 s.blk.comb, toNat_reduce16 _, reduce16_ne_zero _, microOp_reduce hp⟩

/-! ### A whole command (41_checksum_adapter R68) -/

/-- Settles O11: acceptance, then the 2150 micro-operations of `runFor_cksum`. -/
theorem cksumRuns : Obligations.CksumRuns :=
  fun _ h hw hf hm ht => ⟨_, exec_ready .cksum h, runFor_cksum h hw hf ht hm⟩

end Sys2Proof.Safety
end

section
/-!
The host and the register window (42_host_access R73 to R79): where an access goes, what each register reads as, and
what a write does while the block is idle, busy or faulted; then the issue of a command (R75).
-/

namespace Sys2Proof.Machine

/-! ### Where an access goes (42_host_access R78, R79) -/

/-- Below 0x20 the multiples of 4 are the offsets of registers, and no other offset is. -/
theorem regAt_isSome : ∀ off < 0x20, (regAt off).isSome = (off % 4 == 0) := by decide

theorem eq_offset_of_regAt {off : Nat} {r : Reg} (h : regAt off = some r) : off = r.offset := by
  unfold regAt at h
  split at h
  case h_9 => cases h
  all_goals cases h; rfl

theorem exists_offset_eq {off : Nat} (hin : off < 0x20) (hal : off % 4 = 0) : ∃ r : Reg, off = r.offset := by
  have hsome : (regAt off).isSome = true := by rw [regAt_isSome off hin, hal, beq_self_eq_true]
  obtain ⟨r, hr⟩ := Option.isSome_iff_exists.1 hsome
  exact ⟨r, eq_offset_of_regAt hr⟩

theorem regTarget_offset (r : Reg) : regTarget r.offset .word = .reg r := by
  cases r <;> rfl

theorem regTarget_outside {off : Nat} (h : 0x20 ≤ off) (size : AccessSize) : regTarget off size = .outside :=
  if_pos h

theorem regTarget_badShape {off : Nat} {size : AccessSize} (hin : off < 0x20) (h : size ≠ .word ∨ off % 4 ≠ 0) :
    regTarget off size = .badShape := by
  unfold regTarget
  rw [if_neg (Nat.not_le.2 hin)]
  cases size with
  | byte | half => rfl
  | word =>
    have hal : off % 4 ≠ 0 := by simpa using h
    have hnone : regAt off = none := by
      rw [← Option.not_isSome_iff_eq_none, regAt_isSome off hin, beq_iff_eq]
      exact hal
    rw [hnone]

/-! ### Reads (42_host_access R73) -/

theorem regRead_offset (r : Reg) (s : State) : regRead r.offset .word s = .next (s.pushResult (regValue s.blk r)) := by
  rw [regRead, regTarget_offset]

/-- A read that does not reach the block completes with a free value (R78, log 13). -/
theorem regRead_outside {off : Nat} (h : 0x20 ≤ off) (size : AccessSize) (s : State) :
    regRead off size s =
      .next { s.pushResult (Config.freeRead s.freeCtr) with freeCtr := s.freeCtr + 1 } := by
  rw [regRead, regTarget_outside h]

theorem regRead_badShape {off : Nat} {size : AccessSize} (hin : off < 0x20) (h : size ≠ .word ∨ off % 4 ≠ 0)
    (s : State) : regRead off size s = .refused .registerAccessShape := by
  rw [regRead, regTarget_badShape hin h]

/-- Register `RESULT` reads as the number of `RESULT` (10_state R23). -/
theorem resultReg_eq_ofNat (b : Block) : resultReg b = BitVec.ofNat 32 b.result.toNat :=
  (BitVec.ofNat_toNat 32 b.result).symm

/-- Register `SAVED` reads as the number of `SAVED` with `SAVED_VALID` at bit 16 (10_state R23). -/
theorem savedReg_eq_ofNat (b : Block) :
    savedReg b = BitVec.ofNat 32 (b.saved.toNat + 2 ^ 16 * b.savedValid.toNat) := by
  have hnum : (savedReg b).toNat = b.saved.toNat + 2 ^ 16 * b.savedValid.toNat := by
    rw [savedReg, toNat_append_eq_add, toNat_append_eq_add, BitVec.toNat_ofBool]
    rfl
  rw [← hnum, BitVec.ofNat_toNat, BitVec.setWidth_eq]

/-! ### Writes (42_host_access R74 to R79) -/

theorem regWrite_outside {off : Nat} (h : 0x20 ≤ off) (size : AccessSize) (v : Word) (s : State) :
    regWrite off size v s = .next s := by
  rw [regWrite, regTarget_outside h]

theorem regWrite_badShape {off : Nat} {size : AccessSize} (hin : off < 0x20) (h : size ≠ .word ∨ off % 4 ≠ 0)
    (v : Word) (s : State) : regWrite off size v s = .refused .registerAccessShape := by
  rw [regWrite, regTarget_badShape hin h]

theorem regWrite_pageBase (v : Word) (s : State) : regWrite 0x08 .word v s = writePageBase v s := rfl

theorem regWrite_blkidx (v : Word) (s : State) : regWrite 0x0C .word v s = writeBlkidx v s := rfl

/-- Whatever the word, a write to `CMD` takes effect while idle only. -/
theorem writeCmd_guarded (w : Word) (s : State) : ∃ f, writeCmd w s = guardedWrite f s := by
  unfold writeCmd
  split
  next i _ => exact ⟨_, exec_eq i s⟩
  next => exact ⟨_, rfl⟩

/-- The three registers the host writes take effect while idle only (R74 to R77). -/
theorem regWrite_guarded {off : Nat} (h : off = 0x00 ∨ off = 0x08 ∨ off = 0x0C) (v : Word) (s : State) :
    ∃ f, regWrite off .word v s = guardedWrite f s := by
  rcases h with rfl | rfl | rfl
  · exact writeCmd_guarded v s
  · exact ⟨_, regWrite_pageBase v s⟩
  · exact ⟨_, regWrite_blkidx v s⟩

/-- The read-only and the reserved registers drop a write in every phase (R78). -/
theorem regWrite_readOnly {off : Nat}
    (h : off = 0x04 ∨ off = 0x10 ∨ off = 0x14 ∨ off = 0x18 ∨ off = 0x1C) (v : Word) (s : State) :
    regWrite off .word v s = .next s := by
  rcases h with rfl | rfl | rfl | rfl | rfl <;> rfl

/-- Every register of the window drops a write or guards it. -/
theorem regWrite_offset_cases (r : Reg) (v : Word) (s : State) :
    regWrite r.offset .word v s = .next s ∨ ∃ f, regWrite r.offset .word v s = guardedWrite f s := by
  cases r with
  | cmd => exact .inr (regWrite_guarded (.inl rfl) v s)
  | pageBase => exact .inr (regWrite_guarded (.inr (.inl rfl)) v s)
  | blkidx => exact .inr (regWrite_guarded (.inr (.inr rfl)) v s)
  | status | digest | result | saved | reserved => exact .inl rfl

/-! ### A write to `CMD` while idle (42_host_access R75) -/

theorem pageBaseOk_iff (a : Word) : pageBaseOk a = true ↔ a.toNat % 4 = 0 ∧ a.toNat ≤ 0xFFFFE000 := by
  simp [pageBaseOk]

/-- The legal command words are those of the two commands (30_encoding R44). -/
theorem exists_encode_iff (w : Word) : (∃ i, w = encode i) ↔ w = 0x00000001#32 ∨ w = 0x00000002#32 := by
  rw [← encode_mix, ← encode_cksum]
  constructor
  · rintro ⟨_ | _, h⟩
    · exact .inl h
    · exact .inr h
  · rintro (h | h)
    · exact ⟨_, h⟩
    · exact ⟨_, h⟩

/-- The write of a command's word to `CMD` is the command. -/
theorem regWrite_cmd_encode (i : Instr) (s : State) : regWrite 0x00 .word (encode i) s = exec i s := by
  rw [regWrite_cmd, writeCmd_command (decode_encode i)]

/-- R75 case 1: a word that is no command's faults an idle block. -/
theorem regWrite_cmd_illegal {w : Word} {s : State} (hidle : s.blk.phase = .idle) (hw : ∀ i, w ≠ encode i) :
    regWrite 0x00 .word w s = .next (s.setBlk (s.blk.raiseFault .illegalCmd .faulted)) := by
  obtain ⟨why, hwhy⟩ := (decode_illegal_iff w).2 hw
  rw [regWrite_cmd, writeCmd, hwhy]
  exact guardedWrite_idle _ hidle

/-- R75 case 2: a command on an illegal `PAGE_BASE` faults an idle block. -/
theorem exec_badBase {s : State} (i : Instr) (hidle : s.blk.phase = .idle) (hbase : pageBaseOk s.blk.pageBase = false) :
    exec i s = .next (s.setBlk (s.blk.raiseFault .badBase .faulted)) := by
  rw [exec_eq, guardedWrite_idle _ hidle, acceptCommand, if_neg (Bool.not_eq_true _ ▸ hbase), raiseFault_eq]

end Sys2Proof.Machine

namespace Sys2Proof.Safety

open Sys2Proof.Machine

/-! ### The register window -/

/-- Settles O18: a read returns the register's value, and `RESULT` and `SAVED` are given by their numbers. -/
theorem registerReads : Obligations.RegisterReads := by
  intro s
  rw [← resultReg_eq_ofNat, ← savedReg_eq_ofNat]
  exact ⟨regRead_offset .cmd s, regRead_offset .status s, regRead_offset .pageBase s, regRead_offset .blkidx s,
    regRead_offset .digest s, regRead_offset .result s, regRead_offset .saved s, regRead_offset .reserved s⟩

/-- Settles O16. -/
theorem operandWritesWhileIdle : Obligations.OperandWritesWhileIdle := by
  intro v s hidle
  rw [regWrite_pageBase, regWrite_blkidx]
  exact ⟨guardedWrite_idle _ hidle, guardedWrite_idle _ hidle⟩

/-- Settles O17. -/
theorem readOnlyWritesDropped : Obligations.ReadOnlyWritesDropped :=
  fun _ v s => ⟨fun h => regWrite_readOnly h v s,
    fun h size => ⟨regWrite_outside h size v s, _, regRead_outside h size s, rfl, rfl⟩⟩

/-- Settles O20. -/
theorem badShapeRefused : Obligations.BadShapeRefused :=
  fun _ _ v s hin h => ⟨regRead_badShape hin h s, regWrite_badShape hin h v s⟩

/-- Settles O6: the three registers share one guard. -/
theorem busyWritesDropped : Obligations.BusyWritesDropped := by
  intro off v s hbusy hoff
  obtain ⟨f, hf⟩ := regWrite_guarded hoff v s
  rw [hf, guardedWrite_busy f hbusy]

/-- Settles O8: an aligned offset is a register's, or lies outside the window. -/
theorem faultedWritesDropped : Obligations.FaultedWritesDropped := by
  intro off v s hp hal
  rcases Nat.lt_or_ge off 0x20 with hin | hout
  · obtain ⟨r, rfl⟩ := exists_offset_eq hin hal
    rcases regWrite_offset_cases r v s with hdropped | ⟨f, hguarded⟩
    · exact hdropped
    · rw [hguarded, guardedWrite_faulted f hp]
  · exact regWrite_outside hout .word v s

/-! ### Issuing a command (42_host_access R75 to R77) -/

/-- Settles O7. -/
theorem commandsTurnedAway : Obligations.CommandsTurnedAway := by
  intro i s
  rw [exec_eq]
  exact ⟨guardedWrite_busy _, guardedWrite_faulted _⟩

/-- Settles O9, for each way a command can end: accepted, `BAD_BASE`, dropped while faulted, dropped while busy. -/
theorem commandFrame : Obligations.CommandFrame := by
  intro i s t h
  rcases exec_cases h with ⟨_, _, _, rfl⟩ | ⟨_, _, rfl⟩ | ⟨_, rfl⟩ | ⟨_, rfl⟩
  all_goals exact ⟨rfl, rfl, rfl, rfl, rfl, rfl, rfl, rfl, rfl⟩

/-- Settles O4: the word is no command's, or it is one's and the page decides. -/
theorem commandAcceptance : Obligations.CommandAcceptance := by
  intro w s hidle
  refine ⟨fun hw => ?illegal, fun hw hbase => ?badBase, fun hw hbase hpage => ?accepted⟩
  case illegal =>
    rw [← not_or, ← exists_encode_iff, not_exists] at hw
    exact regWrite_cmd_illegal hidle hw
  case badBase =>
    obtain ⟨i, rfl⟩ := (exists_encode_iff w).2 hw
    have hbad : pageBaseOk s.blk.pageBase = false := by
      rw [← Bool.not_eq_true, pageBaseOk_iff]
      omega
    rw [regWrite_cmd_encode]
    exact exec_badBase i hidle hbad
  case accepted =>
    obtain ⟨i, rfl⟩ := (exists_encode_iff w).2 hw
    rw [regWrite_cmd_encode, exec_ready i ⟨hidle, (pageBaseOk_iff _).2 hbase, hpage⟩]
    cases i <;> rfl

end Sys2Proof.Safety
end

section
/-!
Faults and what no other agent can do (60_exceptions): `ABORT` in its three cases, a refused `ABSORB` in the zero
window, and which steps of the system can reach a busy block, a faulted block and another block instance.
-/

namespace Sys2Proof.Machine

/-! ### `ABORT` (60_exceptions R89) -/

theorem microOp_abort {p : Config.Params} {s : State} (hp : s.blk.phase = .abort) : microOp p s = opAbort p s := by
  simp [microOp, hp]

theorem opAbort_ok {p : Config.Params} {s : State} (hv : s.blk.savedValid = true)
    (h : fieldAddr p s.blk + 2 ≤ Config.memBytes) (ha : memAdmits s.platform (fieldAddr p s.blk) 2 = true) :
    opAbort p s = .next ((s.setBlk { s.blk with savedValid := false, phase := .faulted }).setMem
      (writeHalf s.mem (fieldAddr p s.blk) s.blk.saved)) := by
  rw [opAbort, if_pos hv, busWriteHalf, busAccess_admitted _ h ha]

theorem opAbort_refused {p : Config.Params} {s : State} (hv : s.blk.savedValid = true)
    (h : fieldAddr p s.blk + 2 ≤ Config.memBytes) (ha : memAdmits s.platform (fieldAddr p s.blk) 2 = false) :
    opAbort p s = .next (s.setBlk { s.blk with phase := .faulted }) := by
  rw [opAbort, if_pos hv, busWriteHalf, busAccess_refused _ h ha]

/-- With no saved field `ABORT` makes no access. -/
theorem opAbort_of_not_savedValid {p : Config.Params} {s : State} (hv : s.blk.savedValid = false) :
    opAbort p s = .next (s.setBlk { s.blk with phase := .faulted }) := by
  rw [opAbort, if_neg (Bool.eq_false_iff.1 hv)]

/-! ### A block that is not idle (60_exceptions R82, R98) -/

/-- A faulted block takes no step (10_state R20). -/
theorem eq_of_microOp_faulted {p : Config.Params} {s t : State} (h : microOp p s = .next t)
    (hp : s.blk.phase = .faulted) : t = s := by
  simpa [microOp, hp] using h.symm

/-- The only trace a register write leaves on a block that is not idle is `WRERR`, while busy (42_host_access R76,
R77). -/
theorem regEffect_not_idle {s : State} {b : Block} (h : RegEffect s b) (hp : s.blk.phase ≠ .idle) :
    b = s.blk ∨ s.blk.phase.busy = true ∧ b = { s.blk with wrerr := true } := by
  cases h with
  | dropped => exact .inl rfl
  | whileBusy busy => exact .inr ⟨busy, rfl⟩
  | accepted _ idle _ _ | badBase idle | illegal idle | pageBase _ idle | blkidx _ idle => exact absurd idle hp

theorem regEffect_faulted {s : State} {b : Block} (h : RegEffect s b) (hp : s.blk.phase = .faulted) :
    b = s.blk := by
  rcases regEffect_not_idle h (by simp [hp]) with hb | ⟨hbusy, _⟩
  · exact hb
  · simp [hp, Phase.busy] at hbusy

theorem ne_idle_of_busy {ph : Phase} (h : ph.busy = true) : ph ≠ .idle := by
  rintro rfl
  cases h

/-! ### A micro-operation of another instance (60_exceptions R96) -/

/-- The turn of another instance runs its micro-operation in the addressed place and puts both blocks back. -/
theorem step_otherBlock {s t : State} {j : Nat} {b : Block} {rest : List Move}
    (ht : s.turns = .block (j + 1) :: rest) (hb : s.others[j]? = some b) (h : step s = .next t) :
    ∃ u, microOp Config.params (({ s with turns := rest } : State).setBlk b) = .next u ∧
      t = { u with blk := s.blk, others := s.others.set j u.blk } := by
  rw [step_of_turns ht, doMove] at h
  obtain ⟨c, u, hc, hu, rfl⟩ := onBlock_succ h
  obtain rfl : b = c := Option.some.inj (hb.symm.trans hc)
  exact ⟨u, hu, rfl⟩

end Sys2Proof.Machine

namespace Sys2Proof.Safety

open Sys2Proof.Machine

/-- A micro-operation of this machine's blocks changes no byte outside the block's page (20_memory R30, R32). -/
theorem readByte_microOp_outside_page {s t : State} (h : microOp Config.params s = .next t) {a : Nat}
    (ha : a < s.blk.pageBase.toNat ∨ s.blk.pageBase.toNat + 8192 ≤ a) : readByte t.mem a = readByte s.mem a := by
  have hoff := cksumOff_le
  have hfield : fieldAddr Config.params s.blk = s.blk.pageBase.toNat + Config.cksumOff := rfl
  exact readByte_microOp_other h (by omega) (by omega)

/-- Settles O34: the field is put back, or the write is refused, or there is nothing to put back. -/
theorem abortStep : Obligations.AbortStep := by
  intro p s hp (hin : fieldAddr p s.blk + 2 ≤ Config.memBytes)
  rw [microOp_abort hp]
  refine ⟨fun hv hadm => ?admitted, fun hv => opAbort_refused hv hin, opAbort_of_not_savedValid⟩
  case admitted =>
    exact ⟨_, opAbort_ok hv hin hadm, readHalf_writeHalf_same _ _ _, fun a => readByte_writeHalf_other _ _⟩

/-- Settles O35: the refused `ABSORB` enters `ABORT` with the page, `SAVED` and `SAVED_VALID` as they were, so `ABORT`
puts the field back. -/
theorem busErrorRestoresField : Obligations.BusErrorRestoresField := by
  intro p s hp hcause hv hword hfield hrefused hadm
  have habsorb : microOp p s = .next (s.setBlk (s.blk.raiseFault .busError .abort)) := by
    rw [microOp_absorb hp, opAbsorb_refused hword hrefused]
  refine ⟨_, _, habsorb, rfl, (microOp_abort rfl).trans (opAbort_ok hv hfield hadm), ?block,
    readHalf_writeHalf_same _ _ _, fun a => readByte_writeHalf_other _ _⟩
  case block => simp [Block.raiseFault, hcause]

/-- Settles O53: register writes to a faulted block are dropped, and it takes no step of its own. -/
theorem faultedUntilReset : Obligations.FaultedUntilReset := by
  intro s t hp hne h
  exact step_blk_rel (R := fun b c => b.phase = .faulted → c = b) regEffect_faulted
    (fun hu hp => congrArg State.blk (eq_of_microOp_faulted hu hp)) hne h hp

/-- Settles O54: a step that is neither the block's reset nor its own micro-operation is at most a register write. -/
theorem busyBlockUndisturbed : Obligations.BusyBlockUndisturbed := by
  intro s t hbusy hne h
  rcases step_blk_cases h with ⟨hr, _⟩ | ⟨_, hmicro⟩ | he
  · exact absurd hr hne
  · exact .inr (.inr hmicro)
  · exact (regEffect_not_idle he (ne_idle_of_busy hbusy)).imp_right fun hb => .inl hb.2

/-- Settles O56: the other block is put back at its own place, and it writes inside its own page only. -/
theorem otherBlocksIsolated : Obligations.OtherBlocksIsolated := by
  intro s t j b rest ht hb h
  obtain ⟨u, hu, rfl⟩ := step_otherBlock ht hb h
  refine ⟨rfl, fun i hi => List.getElem?_set_ne hi.symm, fun hpages o ho => ?page⟩
  case page =>
    have hout : s.blk.pageBase.toNat + o < b.pageBase.toNat ∨
        b.pageBase.toNat + 8192 ≤ s.blk.pageBase.toNat + o := by omega
    exact readByte_microOp_outside_page hu hout

end Sys2Proof.Safety
end

section
/-!
Every command ends (70_reset_and_hazards R108): a count of the micro-operations still to come, which each one that
meets no refused access lowers by one, and the bound on the micro-operations of a command that meets one.
-/

namespace Sys2Proof.Safety

open Sys2Proof.Machine

/-! ### The micro-operations still to come -/

/-- The micro-operations of a command after its last `FOLD` (10_state R20). -/
def stepsAfterFold : Instr → Nat
  | .mix => 0
  | .cksum => 3

/-- The micro-operations from `b` to the end of its command if no access is refused (10_state R20). -/
def stepsLeft (b : Block) : Nat :=
  match b.phase with
  | .save => 2150
  | .zero => 2149
  | .init => 2145 + stepsAfterFold b.op
  | .absorb => 2144 - b.idx.toNat + stepsAfterFold b.op
  | .final => 96 - b.idx.toNat + stepsAfterFold b.op
  | .fold => 32 - b.idx.toNat + stepsAfterFold b.op
  | .restore => 3
  | .salt => 2
  | .reduce => 1
  | .idle | .abort | .faulted => 0

theorem stepsLeft_accept (b : Block) (i : Instr) : stepsLeft (b.accept i) = commandSteps i := by
  cases i <;> rfl

/-- From `b` to `c` a command came one micro-operation nearer to its end, with no fault. -/
structure Advances (b c : Block) : Prop where
  stepsLeft_succ : stepsLeft c + 1 = stepsLeft b
  cause : c.cause = b.cause
  done : c.phase = .idle → c.done = true

theorem advances_absorbed {b : Block} (x : Word) (hp : b.phase = .absorb) : Advances b (b.absorbed x) := by
  have hlt := b.idx.isLt
  by_cases hi : b.idx.toNat = 2047
  · rw [absorbed_last x hi]
    refine ⟨?_, rfl, by simp⟩
    simp only [stepsLeft, hp, hi, BitVec.toNat_zero]
    omega
  · rw [absorbed_more x hi]
    refine ⟨?_, rfl, by simp [hp]⟩
    simp only [stepsLeft, hp, idx_succ_toNat (i := b.idx) (by omega)]
    omega

theorem advances_finalized {b : Block} (hp : b.phase = .final) (hlt : b.idx.toNat < 64) : Advances b b.finalized := by
  by_cases hi : b.idx.toNat = 63
  · rw [finalized_last hi]
    refine ⟨?_, rfl, by simp⟩
    simp only [stepsLeft, hp, hi, BitVec.toNat_zero]
    omega
  · rw [finalized_more hi]
    refine ⟨?_, rfl, by simp [hp]⟩
    simp only [stepsLeft, hp, idx_succ_toNat (i := b.idx) (by omega)]
    omega

theorem advances_folded {b : Block} (hp : b.phase = .fold) (hlt : b.idx.toNat < 32) : Advances b b.folded := by
  by_cases hi : b.idx.toNat = 31
  · cases ho : b.op with
    | mix =>
      rw [folded_mix hi ho]
      exact ⟨by simp [stepsLeft, stepsAfterFold, hp, hi, ho], rfl, fun _ => rfl⟩
    | cksum =>
      rw [folded_cksum hi ho]
      exact ⟨by simp [stepsLeft, stepsAfterFold, hp, hi, ho], rfl, by simp⟩
  · rw [folded_more hi]
    refine ⟨?_, rfl, by simp [hp]⟩
    simp only [stepsLeft, hp, idx_succ_toNat (i := b.idx) (by omega)]
    omega

/-- A busy block outside `ABORT` advances, or enters `ABORT` or, from `RESTORE`, `FAULTED` (60_exceptions R86). -/
theorem microOp_advances_or_faults {p : Config.Params} {s t : State} (h : microOp p s = .next t)
    (inv : BlockInv s.platform s.blk) (hbusy : s.blk.phase.busy = true) (habort : s.blk.phase ≠ .abort) :
    Advances s.blk t.blk ∨
      ((s.blk.phase = .save ∨ s.blk.phase = .zero ∨ s.blk.phase = .absorb) ∧
        t = s.setBlk (s.blk.raiseFault .busError .abort)) ∨
      (s.blk.phase = .restore ∧ t = s.setBlk (s.blk.raiseFault .busError .faulted)) := by
  rcases microOp_cases h with ⟨hidle, _⟩ | ⟨hp, rfl⟩ | ⟨hp, _, rfl⟩ | ⟨hp, rfl⟩ | ⟨hp, _, rfl⟩ | ⟨hp, rfl⟩ |
    ⟨hp, rfl⟩ | ⟨hp, _, rfl⟩ | ⟨hp, rfl⟩ | ⟨hp, rfl⟩ | ⟨hp, _⟩ | ⟨hp, _⟩ | refused | refused
  on_goal 14 => exact .inr (.inr refused)
  on_goal 13 => exact .inr (.inl refused)
  on_goal 12 => exact absurd hp habort
  on_goal 11 => exact absurd hp habort
  on_goal 7 => exact .inl (advances_folded hp (inv.foldIdx hp))
  on_goal 6 => exact .inl (advances_finalized hp (inv.finalIdx hp))
  on_goal 5 => exact .inl (advances_absorbed _ hp)
  -- `ZERO` leads to `INIT`, whose count depends on the command.
  on_goal 3 =>
    have ho : s.blk.op = .cksum := inv.adapterOp (by simp [hp, adapterOnly])
    exact .inl (by constructor <;> simp [stepsLeft, stepsAfterFold, hp, ho])
  on_goal 1 => exact absurd hbusy (by simp [hidle])
  all_goals exact .inl (by constructor <;> simp [stepsLeft, hp, Nat.add_right_comm])

/-! ### Every micro-operation answers -/

/-- On a legal page every access has an address, so a micro-operation always leads to a next state (20_memory R31,
60_exceptions R88). -/
theorem exists_microOp {s : State} (hbase : pageBaseOk s.blk.pageBase = true) :
    ∃ t, microOp Config.params s = .next t := by
  have hfield := fieldAddr_in_memory hbase
  have hword := wordAddr_in_memory hbase
  have hadm := Bool.eq_false_or_eq_true (memAdmits s.platform (fieldAddr Config.params s.blk) 2)
  cases hp : s.blk.phase with
  | idle | faulted => exact ⟨s, by simp [microOp, hp]⟩
  | save =>
    rw [microOp_save hp]
    exact hadm.elim (fun ha => ⟨_, opSave_ok hfield ha⟩) fun ha => ⟨_, opSave_refused hfield ha⟩
  | zero =>
    rw [microOp_zero hp]
    exact hadm.elim (fun ha => ⟨_, opZero_ok hfield ha⟩) fun ha => ⟨_, opZero_refused hfield ha⟩
  | init => exact ⟨_, microOp_init hp⟩
  | absorb =>
    rw [microOp_absorb hp]
    exact (Bool.eq_false_or_eq_true (memAdmits s.platform (wordAddr s.blk) 4)).elim
      (fun ha => ⟨_, opAbsorb_ok hword ha⟩) fun ha => ⟨_, opAbsorb_refused hword ha⟩
  | final => exact ⟨_, microOp_final hp⟩
  | fold => exact ⟨_, microOp_fold hp⟩
  | restore =>
    rw [microOp_restore hp]
    exact hadm.elim (fun ha => ⟨_, opRestore_ok hfield ha⟩) fun ha => ⟨_, opRestore_refused hfield ha⟩
  | salt => exact ⟨_, microOp_salt hp⟩
  | reduce => exact ⟨_, microOp_reduce hp⟩
  | abort =>
    rw [microOp_abort hp]
    cases hv : s.blk.savedValid with
    | true => exact hadm.elim (fun ha => ⟨_, opAbort_ok hv hfield ha⟩) fun ha => ⟨_, opAbort_refused hv hfield ha⟩
    | false => exact ⟨_, opAbort_of_not_savedValid hv⟩

/-- With no move left, a busy block on a legal page takes a step, its next micro-operation. -/
theorem exists_step_busy {s : State} (ht : s.turns = []) (hbusy : s.blk.phase.busy = true)
    (hbase : pageBaseOk s.blk.pageBase = true) : ∃ t, microOp Config.params s = .next t ∧ step s = .next t := by
  obtain ⟨t, hm⟩ := exists_microOp hbase
  exact ⟨t, hm, (step_busy ht hbusy).trans hm⟩

/-! ### How a command ends -/

/-- The block's command has completed (42_host_access R81). -/
def Completed (b : Block) : Prop := b.phase = .idle ∧ b.done = true ∧ b.cause = .none

/-- The block's command has met a refused access (60_exceptions R86). -/
def BusFaulted (b : Block) : Prop := b.phase = .faulted ∧ b.done = false ∧ b.cause = .busError

/-- The command of the block ends: it completes after exactly the steps left to it, or it faults early enough for the
whole command to stay within its bound. -/
def Ends (s : State) : Prop :=
  ∃ n u, runFor n s = .next u ∧
    (Completed u.blk ∧ n = stepsLeft s.blk ∨
      BusFaulted u.blk ∧ n + commandSteps s.blk.op ≤ stepsLeft s.blk + faultSteps s.blk.op)

/-- No move is left and the block's command has met no fault: it runs, or it has completed. -/
structure OnCourse (s : State) : Prop where
  turns : s.turns = []
  inv : BlockInv s.platform s.blk
  cause : s.blk.cause = .none
  done : s.blk.phase = .idle → s.blk.done = true

theorem OnCourse.completed {s : State} (h : OnCourse s) (hbusy : s.blk.phase.busy = false) : Completed s.blk := by
  have hphase := (h.inv.causeNone.1 h.cause).2
  have hidle : s.blk.phase = .idle := by
    cases hp : s.blk.phase <;> simp_all [Phase.busy]
  exact ⟨hidle, h.done hidle, h.cause⟩

/-- One micro-operation of a block that advances leads to a block on course. -/
theorem OnCourse.of_advances {s t : State} (h : OnCourse s) (hm : microOp Config.params s = .next t)
    (ha : Advances s.blk t.blk) : OnCourse t := by
  obtain ⟨-, hplatform, hturns, -, -⟩ := microOp_frame hm
  exact ⟨hturns.trans h.turns, hplatform ▸ blockInv_microOp h.inv hm, ha.cause.trans h.cause, ha.done⟩

theorem Ends.of_advances {s t : State} (hs : step s = .next t) (ha : Advances s.blk t.blk)
    (ho : t.blk.op = s.blk.op) (h : Ends t) : Ends s := by
  obtain ⟨n, u, hrun, hend⟩ := h
  have hleft := ha.stepsLeft_succ
  rw [ho] at hend
  exact ⟨n + 1, u, by rw [runFor_succ hs, hrun], hend.imp (And.imp_right (by omega)) (And.imp_right (by omega))⟩

/-- `ABORT` faults the block whether or not it can put the field back (60_exceptions R89). -/
theorem busFaulted_of_microOp_abort {p : Config.Params} {s t : State} (h : microOp p s = .next t)
    (hp : s.blk.phase = .abort) (hdone : s.blk.done = false) (hcause : s.blk.cause = .busError) :
    BusFaulted t.blk := by
  rcases microOp_cases h with ⟨hq, _⟩ | ⟨hq, _⟩ | ⟨hq, _⟩ | ⟨hq, _⟩ | ⟨hq, _⟩ | ⟨hq, _⟩ | ⟨hq, _⟩ | ⟨hq, _⟩ |
    ⟨hq, _⟩ | ⟨hq, _⟩ | ⟨_, _, _, rfl⟩ | ⟨_, rfl⟩ | ⟨hq, _⟩ | ⟨hq, _⟩
  on_goal 12 => exact ⟨rfl, hdone, hcause⟩
  on_goal 11 => exact ⟨rfl, hdone, hcause⟩
  all_goals simp [hp, Phase.busy] at hq

/-- A refused access that leads to `ABORT` leaves room for that access and for `ABORT`. -/
theorem two_steps_within_bound {pl : Platform} {b : Block} (inv : BlockInv pl b)
    (hp : b.phase = .save ∨ b.phase = .zero ∨ b.phase = .absorb) :
    2 + commandSteps b.op ≤ stepsLeft b + faultSteps b.op := by
  rcases hp with hp | hp | hp
  on_goal 3 =>
    have hlt := b.idx.isLt
    cases ho : b.op <;> simp only [stepsLeft, hp, ho, stepsAfterFold, commandSteps, faultSteps] <;> omega
  all_goals
    have ho : b.op = .cksum := inv.adapterOp (by simp [hp, adapterOnly])
    simp [stepsLeft, hp, ho, commandSteps, faultSteps]

/-- A command whose access is refused in `SAVE`, `ZERO` or `ABSORB` ends with `ABORT` (60_exceptions R86, R89). -/
theorem ends_of_abort {s : State} (h : OnCourse s)
    (hp : s.blk.phase = .save ∨ s.blk.phase = .zero ∨ s.blk.phase = .absorb)
    (hs : step s = .next (s.setBlk (s.blk.raiseFault .busError .abort))) : Ends s := by
  have hbusy : s.blk.phase.busy = true := by rcases hp with hp | hp | hp <;> rw [hp] <;> rfl
  obtain ⟨u, hu, ht⟩ :=
    exists_step_busy (s := s.setBlk (s.blk.raiseFault .busError .abort)) h.turns rfl (h.inv.baseOk hbusy)
  refine ⟨2, u, by rw [runFor_succ hs, runFor_succ ht, runFor], .inr ⟨?_, two_steps_within_bound h.inv hp⟩⟩
  exact busFaulted_of_microOp_abort hu rfl (h.inv.notDone hbusy) (by simp [h.cause])

/-- A command whose last access is refused ends with it: `RESTORE` faults at once (60_exceptions R86). -/
theorem ends_of_refused_restore {s : State} (h : OnCourse s) (hp : s.blk.phase = .restore)
    (hs : step s = .next (s.setBlk (s.blk.raiseFault .busError .faulted))) : Ends s := by
  have hbusy : s.blk.phase.busy = true := by rw [hp]; rfl
  have ho : s.blk.op = .cksum := h.inv.adapterOp (by simp [hp, adapterOnly])
  have hrun : runFor 1 s = .next (s.setBlk (s.blk.raiseFault .busError .faulted)) := by rw [runFor_succ hs, runFor]
  refine ⟨1, _, hrun, .inr ⟨⟨rfl, h.inv.notDone hbusy, by simp [h.cause]⟩, ?_⟩⟩
  simp [stepsLeft, hp, ho, commandSteps, faultSteps]

/-- A command on course ends, by induction on the micro-operations left to it. -/
theorem OnCourse.ends {s : State} (h : OnCourse s) : Ends s := by
  induction hn : stepsLeft s.blk using Nat.strong_induction_on generalizing s with
  | _ n ih =>
    cases hbusy : s.blk.phase.busy with
    | false =>
      have hend := h.completed hbusy
      exact ⟨0, s, rfl, .inl ⟨hend, by simp [stepsLeft, hend.1]⟩⟩
    | true =>
      obtain ⟨t, hm, hs⟩ := exists_step_busy h.turns hbusy (h.inv.baseOk hbusy)
      rcases microOp_advances_or_faults hm h.inv hbusy (h.inv.causeNone.1 h.cause).1 with
        ha | ⟨hp, rfl⟩ | ⟨hp, rfl⟩
      · obtain ⟨-, -, ho, -⟩ := sameOperands_microOp hm
        have hlt : stepsLeft t.blk < n := by rw [← hn, ← ha.stepsLeft_succ]; exact Nat.lt_succ_self _
        exact .of_advances hs ha ho (ih _ hlt (h.of_advances hm ha) rfl)
      · exact ends_of_abort h hp hs
      · exact ends_of_refused_restore h hp hs

/-- A command that was just accepted is on course. -/
theorem onCourse_accept {s : State} (i : Instr) (h : Ready s) (inv : BlockInv s.platform s.blk) (ht : s.turns = []) :
    OnCourse (s.setBlk (s.blk.accept i)) where
  turns := ht
  inv := blockInv_accept i inv h.idle h.baseOk h.ordinary
  cause := inv.causeNone.2 (by simp [h.idle])
  done := by cases i <;> simp [entryPhase]

/-- Settles O12: an accepted command is on course, with all its micro-operations left. -/
theorem everyCommandEnds : Obligations.EveryCommandEnds := by
  intro i s h inv ht
  obtain ⟨n, u, hrun, hend⟩ := (onCourse_accept i h inv ht).ends
  rw [setBlk_blk, stepsLeft_accept, accept_op] at hend
  refine ⟨_, n, u, exec_ready i h, hrun, hend.imp ?completes ?faults⟩
  case completes => exact fun ⟨⟨hphase, hdone, hcause⟩, hn⟩ => ⟨hphase, hdone, hcause, hn⟩
  case faults => exact fun ⟨⟨hphase, hdone, hcause⟩, hn⟩ => ⟨hphase, hdone, hcause, by omega⟩

end Sys2Proof.Safety
end
